-- ==== Sys2Proof/Word.lean ====
section
/-! DEFINITION. The widths of the hardware: 32-bit words, 8-bit data bytes, 6-bit window offsets (00_scope.md R6, R7). -/

namespace Sys2Proof

/-- A 32-bit unsigned value: REG, SEED, a table entry, a command word, bus data (R6, `W` and `BUS_W`). -/
abbrev Word := BitVec 32

/-- A data byte, an opcode, or an index of the 256-entry table (R6, `N_ENTRIES`). -/
abbrev Byte := BitVec 8

/-- A byte offset into the 64-byte register window (R6, `OFF_W` = 6). -/
abbrev Offset := BitVec 6

end Sys2Proof
end

