-- ==== Sys2Proof/Syntax.lean ====
section
/-! DEFINITION. The commands of CORE, one constructor per row of spec/opcode_table.json (30_encoding.md R82). -/

namespace Sys2Proof

/-- A command. Its operands are the data bytes in the order in which they enter the CRC (R83). -/
inductive Instr where
  /-- NOP (R124). -/
  | nop
  /-- INIT: load the complement of SEED (R125). -/
  | init
  /-- CLRERR: clear the sticky error bits (R126). -/
  | clrerr
  /-- UPD0: the zero-length update (R127). -/
  | upd0
  /-- UPD1 b0: fold one byte (R128). -/
  | upd1 (b0 : Byte)
  /-- UPD2 b0, b1: fold two bytes (R129). -/
  | upd2 (b0 b1 : Byte)
  /-- UPD3 b0, b1, b2: fold three bytes (R130). -/
  | upd3 (b0 b1 b2 : Byte)
deriving DecidableEq, Repr

end Sys2Proof
end

