-- ==== Sys2Proof/WellFormed.lean ====
section
/-! DEFINITION. Which commands are well formed. An operand of `Instr` is a `Byte`, so the type itself carries rule R82's
width and every command is well formed; the one check left is that of the assembler's operands (30_encoding.md R87). -/

namespace Sys2Proof

/-- Every command of R82 with byte operands is well formed: there is no further constraint on a field. -/
def Instr.wellFormed : Instr → Bool
  | .nop => true
  | .init => true
  | .clrerr => true
  | .upd0 => true
  | .upd1 _ => true
  | .upd2 _ _ => true
  | .upd3 _ _ _ => true

/-- An operand as assembler source writes it: 0 to 255. "A value above 0xFF is an assembly error, never a truncation" (R87). -/
def operandWellFormed (v : Nat) : Bool := decide (v ≤ 0xFF)

end Sys2Proof
end

