-- ==== Sys2Proof/Decode.lean ====
section
/-! DEFINITION. The command word: its fields, the decoder and the encoder (30_encoding.md R80 to R87). -/

namespace Sys2Proof

/-- OP, bits 31:24 (R81). -/
def opField (w : Word) : Byte := w.extractLsb' 24 8

/-- OPERAND, bits 23:0 (R81). -/
def operandField (w : Word) : BitVec 24 := w.extractLsb' 0 24

/-- B0, OPERAND lane 0: the first data byte (R81). -/
def lane0 (w : Word) : Byte := w.extractLsb' 0 8

/-- B1, OPERAND lane 1: the second data byte (R81). -/
def lane1 (w : Word) : Byte := w.extractLsb' 8 8

/-- B2, OPERAND lane 2: the third data byte (R81). -/
def lane2 (w : Word) : Byte := w.extractLsb' 16 8

/-- Why a word is ILLEGAL: the two cases of R85. -/
inductive IllegalReason where
  /-- OP is none of the seven opcodes. -/
  | unassignedOpcode
  /-- A lane that R82 marks "must be 0" has a bit set. -/
  | reservedLane
deriving DecidableEq, Repr

/-- What `Decode(w)` returns (R84): a command, or ILLEGAL with its reason. -/
inductive Decoded where
  | command (i : Instr)
  | illegal (why : IllegalReason)
deriving DecidableEq, Repr

/-- A command if its reserved lanes are 0, else ILLEGAL (R82, R85). -/
def ifReservedZero (ok : Bool) (i : Instr) : Decoded :=
  if ok then .command i else .illegal .reservedLane

/-- `Decode(w)`, total on every 32-bit word (R84). -/
def decode (w : Word) : Decoded :=
  if opField w = 0x00#8 then ifReservedZero (operandField w == 0#24) .nop
  else if opField w = 0x01#8 then ifReservedZero (operandField w == 0#24) .init
  else if opField w = 0x02#8 then ifReservedZero (operandField w == 0#24) .clrerr
  else if opField w = 0x10#8 then ifReservedZero (operandField w == 0#24) .upd0
  else if opField w = 0x11#8 then
    ifReservedZero (lane1 w == 0#8 && lane2 w == 0#8) (.upd1 (lane0 w))
  else if opField w = 0x12#8 then ifReservedZero (lane2 w == 0#8) (.upd2 (lane0 w) (lane1 w))
  else if opField w = 0x13#8 then .command (.upd3 (lane0 w) (lane1 w) (lane2 w))
  else .illegal .unassignedOpcode

/-- A command word from its four bytes, OP highest and B0 lowest (R81). -/
def packWord (op b2 b1 b0 : Byte) : Word := op ++ b2 ++ b1 ++ b0

/-- The word of a command (R87, the opcodes of R82). -/
def encode : Instr → Word
  | .nop => packWord 0x00#8 0#8 0#8 0#8
  | .init => packWord 0x01#8 0#8 0#8 0#8
  | .clrerr => packWord 0x02#8 0#8 0#8 0#8
  | .upd0 => packWord 0x10#8 0#8 0#8 0#8
  | .upd1 b0 => packWord 0x11#8 0#8 0#8 b0
  | .upd2 b0 b1 => packWord 0x12#8 0#8 b1 b0
  | .upd3 b0 b1 b2 => packWord 0x13#8 b2 b1 b0

/-- One row of the match and mask table of R84 (and of spec/opcode_table.json). -/
structure OpcodeRow where
  mnemonic  : String
  matchBits : Word
  maskBits  : Word
deriving DecidableEq, Repr

/-- "A word w selects a command when `(w & mask) = match`" (R84). -/
abbrev OpcodeRow.selects (r : OpcodeRow) (w : Word) : Prop := w &&& r.maskBits = r.matchBits

/-- The row a command belongs to (R84). -/
def opcodeRow : Instr → OpcodeRow
  | .nop => ⟨"NOP", 0x00000000#32, 0xFFFFFFFF#32⟩
  | .init => ⟨"INIT", 0x01000000#32, 0xFFFFFFFF#32⟩
  | .clrerr => ⟨"CLRERR", 0x02000000#32, 0xFFFFFFFF#32⟩
  | .upd0 => ⟨"UPD0", 0x10000000#32, 0xFFFFFFFF#32⟩
  | .upd1 _ => ⟨"UPD1", 0x11000000#32, 0xFFFFFF00#32⟩
  | .upd2 _ _ => ⟨"UPD2", 0x12000000#32, 0xFFFF0000#32⟩
  | .upd3 _ _ _ => ⟨"UPD3", 0x13000000#32, 0xFF000000#32⟩

/-- The seven rows, in the table's order (R84). -/
def opcodeTable : List OpcodeRow :=
  [opcodeRow .nop, opcodeRow .init, opcodeRow .clrerr, opcodeRow .upd0,
   opcodeRow (.upd1 0#8), opcodeRow (.upd2 0#8 0#8), opcodeRow (.upd3 0#8 0#8 0#8)]

/-- The command of a decoding, if it is one. -/
def Decoded.toOption : Decoded → Option Instr
  | .command i => some i
  | .illegal _ => none

/-- The command word whose low `nbits` bits are those of `w` and whose other bits are 0. A command word is one 32-bit
bus word, bit i of the bus being bit i of the word (R58, R80). Log entry 16. -/
def tableWord (nbits w : Nat) : Word := BitVec.ofNat 32 (w % 2 ^ nbits)

/-- The command the decoder reads from the bits of an opcode-table row. -/
def decodeTableWord (nbits w : Nat) : Option Instr := (decode (tableWord nbits w)).toOption

end Sys2Proof
end

