-- ==== Sys2Proof/Config.lean ====
section
/-! DEFINITION. The parameters of 00_scope.md R6: the fixed ones with their values, the OPEN ones as constants with no body. -/

namespace Sys2Proof

/-- The reflected Castagnoli polynomial, fixed and not configurable (R2, R6, R30). -/
def Config.poly : Word := 0x82F63B78#32

/-- OPEN: the base address of the window in the host's address space (R6, D5). No rule reads it: the model speaks of
offsets only (R61). Log entry 9. -/
opaque Config.crcBase : Nat

/-- OPEN: clock cycles from reset release to READY = 1 (R6, D11). No rule reads it (R192). Log entry 9. -/
opaque Config.tableBuildCycles : Nat

/-- OPEN: cycles a CMD write with this opcode is held (R6, D22). No rule reads it (R192). Log entry 9. -/
opaque Config.cmdLatency : Byte → Nat

end Sys2Proof
end

