-- ==== Sys2Proof/Machine/State.lean ====
section
/-! DEFINITION. The state of CORE (10_state.md R20), the host transaction (20_memory.md R51), what can happen next, and
the state right after reset (R34). -/

namespace Sys2Proof.Machine

/-- The direction of a host access (R51). -/
inductive Dir where
  | read
  | write
deriving DecidableEq, Repr

/-- The size of a host access: 1, 2 or 4 bytes (R51). -/
inductive Size where
  | one
  | two
  | four
deriving DecidableEq, Repr

/-- A host access as the host presents it, `(dir, off, size, wdata)` (R51). A read does not use `wdata`. -/
structure Access where
  dir   : Dir
  off   : Offset
  size  : Size
  wdata : Word
deriving DecidableEq, Repr

/-- The response of the bus (R51). -/
inductive Resp where
  | okay
  | error
deriving DecidableEq, Repr

/-- What a completed access returns, `(rdata, resp)` (R51). `rdata` is `none` for a write answered OKAY: there it is not
meaningful. A BusError answers `some 0` for reads and writes alike (R52). Log entry 6. -/
structure Response where
  resp  : Resp
  rdata : Option Word
deriving DecidableEq, Repr

/-- What can happen next. The two agents of R11 and the two edges of the reset input (R180). Log entry 1. -/
inductive Event where
  /-- The host port accepts this access (R51). -/
  | access (a : Access)
  /-- The table builder steps, writing those of these entries that are not written yet (R103). Log entry 3. -/
  | build (picks : List Byte)
  /-- rst_n is asserted (R180). -/
  | assertReset
  /-- rst_n is released (R180). -/
  | releaseReset
deriving DecidableEq, Repr

/-- Nothing stops CORE: its three error conditions are a sticky bit or a bus response, after which it goes on (R163,
R166), and every command is total (R138). So no step raises a fault and the type has no constructor. Safe. -/
inductive Fault where
deriving DecidableEq, Repr

/-- The reasons for which a step gives no next state. -/
inductive Refusal where
  /-- Raised by `exec` for a command that has no meaning yet; no arm raises it. Safe: the machine stops. -/
  | notModelled (mnemonic : String)
  /-- Raised by `Machine.perform` for a host access while rst_n is asserted, where "a model gives the host port no step"
  (R182, X6). Safe: the machine stops. Log entry 7. -/
  | accessDuringReset
  /-- Raised by `Machine.hostStep`, the host notation's own step and no step of CORE, for a branch to a label the
  sequence does not hold (R88). Safe: the host stops. Log entry 14. -/
  | unknownLabel
deriving DecidableEq, Repr

/-- The state of CORE: the elements of R20, the level of the reset input (R180), and two fields of the model's own. -/
structure State where
  /-- REG, the running CRC register itself, not its complement (R21, C1). -/
  reg         : Word
  /-- SEED, what INIT loads complemented (R22). -/
  seed        : Word
  /-- TBL_INDEX, the entry TBL_DATA shows (R23). -/
  tblIndex    : Byte
  /-- ERR_ILLEGAL, sticky (R25). -/
  errIllegal  : Bool
  /-- ERR_NOTREADY, sticky (R26). -/
  errNotReady : Bool
  /-- READY, the table is built (R27). -/
  ready       : Bool
  /-- TABLE[0..255] (R28). -/
  table       : Vector Word 256
  /-- BUILD, which entries the builder has written (R29). -/
  build       : Vector Bool 256
  /-- The level of rst_n: `false` is asserted (R180). -/
  rstN        : Bool
  /-- The model's own: what happens next, oldest first. Log entry 1. -/
  events      : List Event
  /-- The model's own: what the last completed access returned. Log entry 6. -/
  lastResponse : Option Response
deriving DecidableEq, Repr

/-- `ResetState` (R34), rst_n just released and nothing presented yet. R34 leaves TABLE unspecified: log entry 4. -/
def State.reset : State where
  reg := 0xFFFFFFFF#32
  seed := 0x00000000#32
  tblIndex := 0x00#8
  errIllegal := false
  errNotReady := false
  ready := false
  table := Vector.replicate 256 0#32
  build := Vector.replicate 256 false
  rstN := true
  events := []
  lastResponse := none

end Sys2Proof.Machine
end

