-- ==== Sys2Proof/Machine/Ops.lean ====
section
/-! DEFINITION. The named operations: T and Step (40_table_generator.md, 41_accumulator.md), the writes of each state
element, and the raising of an error condition, once (60_exceptions.md R160 to R163). -/

namespace Sys2Proof.Machine

/-- `zext_32(v)` of a byte (R8). -/
def zext (b : Byte) : Word := b.setWidth 32

/-- `v[7:0]` of a word (R7). -/
def lowByte (v : Word) : Byte := v.setWidth 8

/-- `BitStep(r)` (R100). -/
def bitStep (r : Word) : Word :=
  if r.getLsbD 0 then (r >>> 1) ^^^ Config.poly else r >>> 1

/-- `n` bit steps. -/
def bitSteps : Nat → Word → Word
  | 0, r => r
  | n + 1, r => bitSteps n (bitStep r)

/-- `T(i)`: eight bit steps of i (R100). -/
def tableEntry (i : Byte) : Word := bitSteps 8 (zext i)

/-- `TABLE[i]` of any table. -/
def entryAt {α : Type} (t : Vector α 256) (i : Byte) : α := t[i.toNat]'i.isLt

/-- A table with entry i replaced. -/
def setEntry {α : Type} (t : Vector α 256) (i : Byte) (v : α) : Vector α 256 := t.set i.toNat v i.isLt

/-- Every index of the table, in order. -/
def allEntries : List Byte := (List.range 256).map (BitVec.ofNat 8)

/-- The table whose entry i is `f i`. -/
def tableOf {α : Type} (f : Byte → α) : Vector α 256 :=
  ⟨(allEntries.map f).toArray, by simp [allEntries]⟩

/-- `Step(r, b)` over a table: `TABLE[(r ^ zext_32(b)) & 0xFF] ^ (r >> 8)` (R120). The low byte is `& 0xFF`. -/
def stepByte (t : Vector Word 256) (r : Word) (b : Byte) : Word :=
  entryAt t (lowByte (r ^^^ zext b)) ^^^ (r >>> 8)

/-- `Fold(r, S)` over a table: Step on S's bytes in order (R122). -/
def foldBytes (t : Vector Word 256) (r : Word) (bytes : List Byte) : Word :=
  bytes.foldl (stepByte t) r

/-- `REG <- v`. -/
def State.setReg (s : State) (v : Word) : State := { s with reg := v }

/-- `SEED <- v`. -/
def State.setSeed (s : State) (v : Word) : State := { s with seed := v }

/-- `TBL_INDEX <- i`. -/
def State.setTblIndex (s : State) (i : Byte) : State := { s with tblIndex := i }

/-- `ERR_ILLEGAL <- b`. -/
def State.setErrIllegal (s : State) (b : Bool) : State := { s with errIllegal := b }

/-- `ERR_NOTREADY <- b`. -/
def State.setErrNotReady (s : State) (b : Bool) : State := { s with errNotReady := b }

/-- `READY <- b`. -/
def State.setReady (s : State) (b : Bool) : State := { s with ready := b }

/-- What is left to happen. -/
def State.setEvents (s : State) (es : List Event) : State := { s with events := es }

/-- The level of rst_n. -/
def State.setRstN (s : State) (b : Bool) : State := { s with rstN := b }

/-- The access returns this. -/
def State.respond (s : State) (r : Response) : State := { s with lastResponse := some r }

/-- The builder writes `TABLE[i] <- T(i)`, if it has not written it yet (R103). -/
def State.writeEntry (s : State) (i : Byte) : State :=
  if entryAt s.build i then s
  else { s with table := setEntry s.table i (tableEntry i), build := setEntry s.build i true }

/-- The error conditions of R163. -/
inductive ErrorCondition where
  /-- R160. -/
  | illegalCommand
  /-- R161. -/
  | notReady
  /-- R162. -/
  | busError
deriving DecidableEq, Repr

/-- Raising an error condition: its sticky bit is set and nothing else changes; a BusError changes nothing (R160 to
R162, R166). The response of the access is `ErrorCondition.resp`. -/
def State.raiseError (s : State) : ErrorCondition → State
  | .illegalCommand => s.setErrIllegal true
  | .notReady => s.setErrNotReady true
  | .busError => s

/-- The bus response of the access that raised the condition (R163). -/
def ErrorCondition.resp : ErrorCondition → Resp
  | .illegalCommand => .okay
  | .notReady => .okay
  | .busError => .error

/-- Every element at its `ResetState` value, while rst_n is asserted (R180). What is left to happen is no element. -/
def State.assertReset (s : State) : State :=
  { State.reset with rstN := false, events := s.events }

/-- rst_n is released: the builder may step and the host port may accept accesses (R180). -/
def State.releaseReset (s : State) : State := s.setRstN true

end Sys2Proof.Machine
end

