-- ==== Sys2Proof/Machine/Builder.lean ====
section
/-! DEFINITION. The table-builder agent (40_table_generator.md R103 to R106). -/

namespace Sys2Proof.Machine

/-- One step of the builder: it writes those of the picked entries that are not written yet, in the order picked, and sets
READY in the same step if that was the last of the 256. Once READY = 1 it has no step (R103). Log entry 3. -/
def builderStep (picks : List Byte) (s : State) : State :=
  if s.ready then s
  else
    let t := picks.foldl State.writeEntry s
    t.setReady (t.build.all (fun b => b))

/-- The rest of the build as one atomic step that writes every entry not written yet and sets READY together, which R103
allows. It is `builderStep` on every index (Laws/Ops.lean, `finishBuild_eq_builderStep`). -/
def finishBuild (s : State) : State :=
  if s.ready then s
  else
    { s with
      table := tableOf fun i => if entryAt s.build i then entryAt s.table i else tableEntry i
      build := Vector.replicate 256 true
      ready := true }

/-- The builder's turn: while rst_n is asserted it is held (R180). -/
def builderTurn (picks : List Byte) (s : State) : State :=
  if s.rstN then builderStep picks s else s

end Sys2Proof.Machine
end

