-- ==== Sys2Proof/Machine/Flags.lean ====
section
/-! DEFINITION. The STATUS bits (10_state.md R24): the view a read returns, and the clearing of the sticky bits. -/

namespace Sys2Proof.Machine

/-- A 1-bit element as a word. -/
def flagWord (b : Bool) : Word := if b then 1#32 else 0#32

/-- STATUS: `zext_32(ERR_NOTREADY<<2 | ERR_ILLEGAL<<1 | READY)`, the reserved bits 31:3 reading 0 (R24, R53). -/
def statusWord (s : State) : Word :=
  (flagWord s.errNotReady <<< 2) ||| (flagWord s.errIllegal <<< 1) ||| flagWord s.ready

/-- Both sticky error bits cleared, READY not touched (R126). -/
def State.clearErrors (s : State) : State := (s.setErrIllegal false).setErrNotReady false

end Sys2Proof.Machine
end

