-- ==== Sys2Proof/Machine/Operands.lean ====
section
/-! DEFINITION. The operands of a command (30_encoding.md R83): which bytes it presents, in which order. -/

namespace Sys2Proof.Machine

/-- The data bytes a command presents, in the order in which they enter the CRC: B0, then B1, then B2 (R83). -/
def dataBytes : Instr → List Byte
  | .nop => []
  | .init => []
  | .clrerr => []
  | .upd0 => []
  | .upd1 b0 => [b0]
  | .upd2 b0 b1 => [b0, b1]
  | .upd3 b0 b1 b2 => [b0, b1, b2]

/-- The commands that read TABLE and so need READY: UPD1, UPD2 and UPD3 (R123, D12). -/
def needsTable : Instr → Bool
  | .nop => false
  | .init => false
  | .clrerr => false
  | .upd0 => false
  | .upd1 _ => true
  | .upd2 _ _ => true
  | .upd3 _ _ _ => true

end Sys2Proof.Machine
end

