-- ==== Sys2Proof/Machine/Accumulator.lean ====
section
/-! DEFINITION. The meaning of every command (41_accumulator.md R123 to R130). A command that needs the table tests READY
first: ExecCmd's NotReady check (R123) stands in the one shared operation `updateBytes`. -/

namespace Sys2Proof.Machine

/-- An update that reads TABLE: at READY = 1 the bytes are folded into REG; at READY = 0 it raises NotReady and no byte is
processed (R123, R161). -/
def updateBytes (bytes : List Byte) (s : State) : State :=
  if s.ready then s.setReg (foldBytes s.table s.reg bytes) else s.raiseError .notReady

/-- NOP: no state change (R124). -/
def execNop (s : State) : Host.Outcome State Fault Refusal := .next s

/-- INIT: `REG <- ~SEED` (R125). -/
def execInit (s : State) : Host.Outcome State Fault Refusal := .next (s.setReg (~~~s.seed))

/-- CLRERR: `ERR_ILLEGAL <- 0; ERR_NOTREADY <- 0` (R126). -/
def execClrerr (s : State) : Host.Outcome State Fault Refusal := .next s.clearErrors

/-- UPD0: `REG <- Fold(REG, ε)`, accepted at READY = 0 as well (R127). -/
def execUpd0 (s : State) : Host.Outcome State Fault Refusal :=
  .next (s.setReg (foldBytes s.table s.reg []))

/-- UPD1 b0: `REG <- Step(REG, b0)`, or NotReady (R128). -/
def execUpd1 (b0 : Byte) (s : State) : Host.Outcome State Fault Refusal := .next (updateBytes [b0] s)

/-- UPD2 b0, b1: `REG <- Step(Step(REG, b0), b1)`, or NotReady (R129). -/
def execUpd2 (b0 b1 : Byte) (s : State) : Host.Outcome State Fault Refusal :=
  .next (updateBytes [b0, b1] s)

/-- UPD3 b0, b1, b2: `REG <- Step(Step(Step(REG, b0), b1), b2)`, or NotReady (R130). -/
def execUpd3 (b0 b1 b2 : Byte) (s : State) : Host.Outcome State Fault Refusal :=
  .next (updateBytes [b0, b1, b2] s)

end Sys2Proof.Machine
end

