-- ==== Sys2Proof/Machine/Dispatch.lean ====
section
/-! DEFINITION. One arm per command, each one call of its meaning. -/

namespace Sys2Proof.Machine

/-- The effect of a command written to CMD (41_accumulator.md R123). -/
def exec (i : Instr) (s : State) : Host.Outcome State Fault Refusal :=
  match i with
  | .nop => Sys2Proof.Machine.execNop s
  | .init => Sys2Proof.Machine.execInit s
  | .clrerr => Sys2Proof.Machine.execClrerr s
  | .upd0 => Sys2Proof.Machine.execUpd0 s
  | .upd1 b0 => Sys2Proof.Machine.execUpd1 b0 s
  | .upd2 b0 b1 => Sys2Proof.Machine.execUpd2 b0 b1 s
  | .upd3 b0 b1 b2 => Sys2Proof.Machine.execUpd3 b0 b1 b2 s

end Sys2Proof.Machine
end

