-- ==== Sys2Proof/Machine/Port.lean ====
section
/-! DEFINITION. The host port: the register map (10_state.md R33), register reads and writes (20_memory.md R52 to R54),
ExecCmd (41_accumulator.md R123), and what each event does. -/

namespace Sys2Proof.Machine

/-- The registers of the window (R33). -/
inductive Reg where
  | poly
  | status
  | cmd
  | seed
  | state
  | digest
  | tblIndex
  | tblData
deriving DecidableEq, Repr

/-- `off(R)` (R33). -/
def regOffset : Reg → Offset
  | .poly => 0x00#6
  | .status => 0x04#6
  | .cmd => 0x08#6
  | .seed => 0x0C#6
  | .state => 0x10#6
  | .digest => 0x14#6
  | .tblIndex => 0x18#6
  | .tblData => 0x1C#6

/-- The register at an offset; `none` is a reserved offset (R33). -/
def regAt (off : Offset) : Option Reg :=
  if off = 0x00#6 then some .poly
  else if off = 0x04#6 then some .status
  else if off = 0x08#6 then some .cmd
  else if off = 0x0C#6 then some .seed
  else if off = 0x10#6 then some .state
  else if off = 0x14#6 then some .digest
  else if off = 0x18#6 then some .tblIndex
  else if off = 0x1C#6 then some .tblData
  else none

/-- `TblRead(idx)` (R107). -/
def tblRead (s : State) (idx : Byte) : Word := if s.ready then entryAt s.table idx else 0x00000000#32

/-- What a legal read of a register returns (R53). -/
def readReg (s : State) : Reg → Word
  | .poly => Config.poly
  | .status => statusWord s
  | .cmd => 0x00000000#32
  | .seed => s.seed
  | .state => s.reg
  | .digest => ~~~s.reg
  | .tblIndex => zext s.tblIndex
  | .tblData => tblRead s s.tblIndex

/-- `RegRead(off)`'s rdata: a reserved offset reads 0 (R53). -/
def regRead (s : State) (off : Offset) : Word :=
  match regAt off with
  | some r => readReg s r
  | none => 0x00000000#32

/-- `ExecCmd(w)`: an ILLEGAL word raises IllegalCommand, a command runs by its rule (R123). -/
def execCmd (w : Word) (s : State) : Host.Outcome State Fault Refusal :=
  match decode w with
  | .command i => exec i s
  | .illegal _ => .next (s.raiseError .illegalCommand)

/-- `RegWrite(off, v)`: only CMD, SEED and TBL_INDEX do anything (R54). -/
def regWrite (off : Offset) (v : Word) (s : State) : Host.Outcome State Fault Refusal :=
  match regAt off with
  | some .cmd => execCmd v s
  | some .seed => .next (s.setSeed v)
  | some .tblIndex => .next (s.setTblIndex (lowByte v))
  | some .poly => .next s
  | some .status => .next s
  | some .state => .next s
  | some .digest => .next s
  | some .tblData => .next s
  | none => .next s

/-- "An access is legal only when `size = 4` and `off mod 4 = 0`" (R52). -/
def accessLegal (a : Access) : Bool := a.size == .four && a.off.toNat % 4 == 0

/-- What a BusError returns: ERROR and rdata 0 (R52, R162). -/
def busErrorResponse : Response := ⟨ErrorCondition.busError.resp, some 0x00000000#32⟩

/-- What a legal read returns (R53). -/
def readResponse (v : Word) : Response := ⟨.okay, some v⟩

/-- What a legal write returns, also one whose command is illegal or refused (R54). -/
def writeResponse : Response := ⟨.okay, none⟩

/-- One host access, whole (R52 to R54, R57): a misshapen one is a BusError before anything else (R165). -/
def hostAccess (a : Access) (s : State) : Host.Outcome State Fault Refusal :=
  if accessLegal a then
    match a.dir with
    | .read => .next (s.respond (readResponse (regRead s a.off)))
    | .write => regWrite a.off a.wdata (s.respond writeResponse)
  else .next ((s.raiseError .busError).respond busErrorResponse)

/-- What an event does. While rst_n is asserted the host port has no step and the builder is held (R180, R182). -/
def perform (e : Event) (s : State) : Host.Outcome State Fault Refusal :=
  match e with
  | .access a => if s.rstN then hostAccess a s else .refused .accessDuringReset
  | .build picks => .next (builderTurn picks s)
  | .assertReset => .next s.assertReset
  | .releaseReset => .next s.releaseReset

/-- Nothing is presented: the builder finishes what is left of its work, which keeps R105's fairness; after that CORE
waits (R181). Log entry 2. -/
def idle (s : State) : State := if s.rstN then finishBuild s else s

/-- The write of a command word to CMD: 4 bytes at offset 0x08 (R80). -/
def cmdWrite (w : Word) : Access := ⟨.write, regOffset .cmd, .four, w⟩

end Sys2Proof.Machine
end

