-- ==== Sys2Proof/Machine/Step.lean ====
section
/-! DEFINITION. One step of CORE: the next event, or the idle machine (20_memory.md R62). CORE has no program counter and
fetches nothing (10_state.md R31): a command runs when the host writes it to CMD. -/

namespace Sys2Proof.Machine

/-- One step: the oldest event that is left to happen, or the builder alone. -/
def step (s : State) : Host.Outcome State Fault Refusal :=
  match s.events with
  | [] => .next (idle s)
  | e :: rest => perform e (s.setEvents rest)

/-- `s` with the write of this command word to CMD as the very next event, and rst_n released so that the port accepts it.
Log entry 12. -/
def State.withFetchWord (s : State) (nbits w : Nat) : State :=
  (s.setRstN true).setEvents (.access (cmdWrite (tableWord nbits w)) :: s.events)

end Sys2Proof.Machine
end

