-- ==== Sys2Proof/Machine/HostNotation.lean ====
section
/-! DEFINITION. The host's side (30_encoding.md R87 to R89): the assembler, host sequences and their lines, the
pseudo-instructions, and a host that runs a sequence against CORE. CORE does not execute this notation (R88): the host's
line number and result variable are the host's, and stand beside CORE's state, not in it. Log entry 14. -/

namespace Sys2Proof.Machine

/-- A command as assembler source writes it, its operands plain numbers (R87). -/
inductive AsmCommand where
  | nop
  | init
  | clrerr
  | upd0
  | upd1 (b0 : Nat)
  | upd2 (b0 b1 : Nat)
  | upd3 (b0 b1 b2 : Nat)
deriving DecidableEq, Repr

/-- A byte operand; above 0xFF it is an assembly error (R87). -/
def asmByte (v : Nat) : Option Byte := if operandWellFormed v then some (BitVec.ofNat 8 v) else none

/-- The command an assembler line stands for, or an assembly error (R87). -/
def asmInstr : AsmCommand → Option Instr
  | .nop => some .nop
  | .init => some .init
  | .clrerr => some .clrerr
  | .upd0 => some .upd0
  | .upd1 b0 => (asmByte b0).map Instr.upd1
  | .upd2 b0 b1 => (asmByte b0).bind fun x => (asmByte b1).map fun y => Instr.upd2 x y
  | .upd3 b0 b1 b2 =>
    (asmByte b0).bind fun x => (asmByte b1).bind fun y => (asmByte b2).map fun z => Instr.upd3 x y z

/-- `word(C)` of a source line, or an assembly error (R87). -/
def assemble (c : AsmCommand) : Option Word := (asmInstr c).map encode

/-- A line of a host sequence (R88). `cmd C` is `wr CMD, word(C)`: see `cmdLine`. -/
inductive HostLine where
  /-- `wr R, v`, and `wr/N R, v` with another size. -/
  | wr (size : Size) (off : Offset) (v : Word)
  /-- `rd R`, and `rd/N R` with another size. -/
  | rd (size : Size) (off : Offset)
  /-- `L:`. -/
  | label (l : Nat)
  /-- `bne_m L, mask, val`: if `(h & mask) != val` go to L, else fall through. -/
  | bneM (l : Nat) (mask val : Word)
  /-- `halt`. -/
  | halt
deriving DecidableEq, Repr

/-- `wr R, v` (R88). -/
def wrLine (r : Reg) (v : Word) : HostLine := .wr .four (regOffset r) v

/-- `rd R` (R88). -/
def rdLine (r : Reg) : HostLine := .rd .four (regOffset r)

/-- `cmd C` (R88). -/
def cmdLine (i : Instr) : HostLine := wrLine .cmd (encode i)

/-- `init v` (R89). -/
def initLines (v : Word) : List HostLine := [wrLine .seed v, cmdLine .init]

/-- The commands of `upd S`: UPD3 on each three bytes, then UPD1 or UPD2 on a rest of one or two; none for no byte (R89). -/
def updCommands : List Byte → List Instr
  | [] => []
  | [b0] => [.upd1 b0]
  | [b0, b1] => [.upd2 b0 b1]
  | b0 :: b1 :: b2 :: rest => .upd3 b0 b1 b2 :: updCommands rest

/-- `upd S` (R89). -/
def updLines (bytes : List Byte) : List HostLine := (updCommands bytes).map cmdLine

/-- `digest` (R89). -/
def digestLines : List HostLine := [rdLine .digest]

/-- `poll R, mask, val`, with the fresh label given (R89). R is an offset: that of a register name, or a literal one (R88). -/
def pollLines (l : Nat) (off : Offset) (mask val : Word) : List HostLine :=
  [.label l, .rd .four off, .bneM l mask val]

/-- `wait_ready` (R89). -/
def waitReadyLines (l : Nat) : List HostLine := pollLines l (regOffset .status) 0x1#32 0x1#32

/-- `tbl i` (R89). -/
def tblLines (i : Word) : List HostLine := [wrLine .tblIndex i, rdLine .tblData]

/-- `crc32c v, S` (R89). -/
def crc32cLines (l : Nat) (v : Word) (bytes : List Byte) : List HostLine :=
  waitReadyLines l ++ initLines v ++ updLines bytes ++ digestLines

/-- The access a line makes, if it makes one (R88). A read carries no data; its `wdata` is unused (R51). -/
def lineAccess : HostLine → Option Access
  | .wr size off v => some ⟨.write, off, size, v⟩
  | .rd size off => some ⟨.read, off, size, 0#32⟩
  | .label _ => none
  | .bneM _ _ _ => none
  | .halt => none

/-- The accesses of a sequence without branches, as events for CORE's port. -/
def lineEvents (lines : List HostLine) : List Event := (lines.filterMap lineAccess).map Event.access

/-- A host that runs a sequence beside CORE: its line number, its 32-bit result variable `h`, the response of its last
access, and whether it has reached `halt` (R88). -/
structure HostState where
  line   : Nat
  h      : Word
  resp   : Resp
  halted : Bool
  core   : State
deriving DecidableEq, Repr

/-- Who moves next in the system of host and CORE (R11). -/
inductive HostTurn where
  /-- The host runs its next line. -/
  | host
  /-- The table builder steps, writing those of these entries that are not written yet. -/
  | builder (picks : List Byte)
deriving DecidableEq, Repr

/-- The place of a label in a sequence. -/
def findLabel (l : Nat) (prog : List HostLine) : Option Nat :=
  prog.findIdx? fun x => x == HostLine.label l

/-- The host takes what the last access returned: a read gives `h`, every access gives `resp` (R88). -/
def HostState.receive (m : HostState) (s : State) : HostState :=
  match s.lastResponse with
  | some ⟨resp, some v⟩ => { m with line := m.line + 1, h := v, resp := resp, core := s }
  | some ⟨resp, none⟩ => { m with line := m.line + 1, resp := resp, core := s }
  | none => { m with line := m.line + 1, core := s }

/-- A `wr` line leaves `h` as it is, also where its access is a BusError; a `rd` line writes it (R88). -/
def HostState.complete (m : HostState) (keepH : Bool) : Host.Outcome State Fault Refusal →
    Host.Outcome HostState Fault Refusal
  | .next s => .next (if keepH then { m.receive s with h := m.h } else m.receive s)
  | .fault r => .fault r
  | .refused r => .refused r

/-- The host presents an access to CORE's port; while rst_n is asserted there is none to take it (R182). -/
def portAccess (a : Access) (s : State) : Host.Outcome State Fault Refusal := perform (.access a) s

/-- One line of the host, or one turn of the builder (R88). Past the last line the host has halted. -/
def hostStep (prog : List HostLine) (t : HostTurn) (m : HostState) : Host.Outcome HostState Fault Refusal :=
  match t with
  | .builder picks => .next { m with core := builderTurn picks m.core }
  | .host =>
    if m.halted then .next m
    else
      match prog[m.line]? with
      | none => .next { m with halted := true }
      | some .halt => .next { m with halted := true }
      | some (.label _) => .next { m with line := m.line + 1 }
      | some (.bneM l mask val) =>
        if m.h &&& mask = val then .next { m with line := m.line + 1 }
        else
          match findLabel l prog with
          | some k => .next { m with line := k }
          | none => .refused .unknownLabel
      | some (.wr size off v) => m.complete true (portAccess ⟨.write, off, size, v⟩ m.core)
      | some (.rd size off) => m.complete false (portAccess ⟨.read, off, size, 0#32⟩ m.core)

end Sys2Proof.Machine
end

