-- ==== Sys2Proof/Machine/Fairness.lean ====
section
/-! DEFINITION. Endless runs and the weak fairness of the table builder (40_table_generator.md R105; 70_reset_and_hazards.md
R193): "a run in which the builder is enabled forever and never steps is not a run of CORE". A schedule is an argument
of these definitions and no part of a state. Log entry 18. -/

namespace Sys2Proof.Machine

/-- The builder has a step left: rst_n is released and READY = 0 (R103, R180). -/
def State.builderEnabled (s : State) : Bool := s.rstN && !s.ready

/-- A turn of the builder with these picks is a builder step: "each builder step writes one or more not-yet-written
entries" (R103). -/
def builderMoves (picks : List Byte) (s : State) : Bool :=
  s.builderEnabled && picks.any fun i => !entryAt s.build i

/-- The event is a builder step in this state. -/
def Event.builderMoves : Event → State → Bool
  | .access _, _ => false
  | .build picks, s => Machine.builderMoves picks s
  | .assertReset, _ => false
  | .releaseReset, _ => false

/-- The turn is a builder step in this state. -/
def HostTurn.builderMoves : HostTurn → State → Bool
  | .host, _ => false
  | .builder picks, s => Machine.builderMoves picks s

/-- Weak fairness to the builder (R105), of an endless run through these states of CORE in which `moves n` says whether
step n is a builder step: from every point on, the builder is at some time not enabled, or it steps. -/
def FairToBuilder (core : Nat → State) (moves : Nat → Bool) : Prop :=
  ∀ n, ∃ k, n ≤ k ∧ ((core k).builderEnabled = false ∨ moves k = true)

/-- An endless fair run of CORE: at each step one event is presented and CORE steps on it. -/
structure FairCoreRun (events : Nat → Event) (core : Nat → State) : Prop where
  /-- Each state is CORE's step, on the event presented, from the one before. -/
  steps : ∀ n, step ((core n).setEvents [events n]) = .next (core (n + 1))
  /-- R105. -/
  fair : FairToBuilder core fun n => (events n).builderMoves (core n)

/-- An endless fair run of a host sequence beside CORE. The host's turn comes again and again, since every host access
completes (R193). -/
structure FairHostRun (prog : List HostLine) (turns : Nat → HostTurn) (sys : Nat → HostState) : Prop where
  /-- Each state of the system is the turn's step from the one before. -/
  steps : ∀ n, hostStep prog (turns n) (sys n) = .next (sys (n + 1))
  /-- R105. -/
  fair : FairToBuilder (fun n => (sys n).core) fun n => (turns n).builderMoves (sys n).core
  /-- The host runs its next line again and again. -/
  hostMoves : ∀ n, ∃ k, n ≤ k ∧ turns k = .host

end Sys2Proof.Machine
end

