-- ==== Sys2Proof/Machine/Reference.lean ====
section
/-! DEFINITION. The reference functions of the spec, over T itself and no state: the finished table, the bit-serial step
(41_accumulator.md R121) and the one-shot function Crc32c (R133). -/

namespace Sys2Proof.Machine

/-- The finished table: entry i is T(i) (10_state.md R28). -/
def fullTable : Vector Word 256 := tableOf tableEntry

/-- Eight applications of BitStep to `r ^ zext_32(b)` (R121). -/
def bitSerialStep (r : Word) (b : Byte) : Word := bitSteps 8 (r ^^^ zext b)

/-- `Crc32c(S, k) = ~Fold(~k, S)`, with TABLE = T (R133). -/
def crc32c (bytes : List Byte) (k : Word) : Word := ~~~(foldBytes fullTable (~~~k) bytes)

end Sys2Proof.Machine
end

