-- ==== Sys2Proof/Safety.lean ====
section
/-! DEFINITION. The terms in which claims speak of a run: the invariant of the state, what a host cannot observe, and
the events that are no reset. -/

namespace Sys2Proof.Machine

/-- Every entry the builder has written holds T (40_table_generator.md R103). -/
def State.builtEntriesHoldT (s : State) : Prop :=
  ∀ i : Byte, entryAt s.build i = true → entryAt s.table i = tableEntry i

/-- READY is 1 exactly when all 256 entries are written (10_state.md R27, R29). -/
def State.readyWhenBuilt (s : State) : Prop :=
  s.ready = true ↔ ∀ i : Byte, entryAt s.build i = true

/-- While rst_n is asserted every element is at its reset value (70_reset_and_hazards.md R180). Of this, two parts are the
model's choice and not the spec's: TABLE, which R34 and R28 leave unspecified, is all zero (log entry 4), and no response
is kept (log entry 6). -/
def State.heldInReset (s : State) : Prop := s.rstN = false → s = s.assertReset

/-- The invariant of the machine: it holds at reset and every step keeps it. -/
def State.Inv (s : State) : Prop := s.builtEntriesHoldT ∧ s.readyWhenBuilt ∧ s.heldInReset

/-- The two states differ at most in entries of TABLE that the builder has not written, which no host can observe
(10_state.md R28; 93_implementation_defined.md X1). -/
def State.sameButUnwritten (s t : State) : Prop :=
  t = { s with table := t.table } ∧
  ∀ i : Byte, entryAt s.build i = true → entryAt t.table i = entryAt s.table i

/-- An event that is no edge of rst_n. -/
def Event.noReset : Event → Prop
  | .access _ => True
  | .build _ => True
  | .assertReset => False
  | .releaseReset => False

/-- The event is the legal write to CMD of a word that decodes to this command. -/
def Event.issues (e : Event) (i : Instr) : Prop :=
  ∃ w : Word, e = .access (cmdWrite w) ∧ decode w = .command i

/-- The event is the legal write of an ILLEGAL word to CMD (30_encoding.md R85). -/
def Event.issuesIllegal (e : Event) : Prop :=
  ∃ (w : Word) (why : IllegalReason), e = .access (cmdWrite w) ∧ decode w = .illegal why

/-- `n` steps of CORE, stopping at the first fault or refusal. -/
def run : Nat → State → Host.Outcome State Fault Refusal
  | 0, s => .next s
  | n + 1, s =>
    match step s with
    | .next t => run n t
    | .fault r => .fault r
    | .refused r => .refused r

/-- The commands run one after another, each completing (for 41_accumulator.md R135). -/
def execAll : List Instr → State → Host.Outcome State Fault Refusal
  | [], s => .next s
  | i :: rest, s =>
    match exec i s with
    | .next t => execAll rest t
    | .fault r => .fault r
    | .refused r => .refused r

/-- The data bytes an event presents: those of the command it writes to CMD, if it is the legal write of a command
word (41_accumulator.md R135). -/
def eventBytes : Event → List Byte
  | .access a =>
    if a = cmdWrite a.wdata then
      match decode a.wdata with
      | .command i => dataBytes i
      | .illegal _ => []
    else []
  | .build _ => []
  | .assertReset => []
  | .releaseReset => []

end Sys2Proof.Machine
end

