-- ==== Sys2Proof/Certificates/Slice0/Obligations.lean ====
section
/-! DEFINITION. The statements about CORE, each from the rules of spec/ its docstring names.

Two conventions are the model's own wherever they stand: what happens next is the list `events` (log entry 1), and the
response of the last access is kept in `lastResponse`, where a write answered OKAY has no rdata because R51 gives it no
meaning (log entry 6). -/

open Sys2Proof Sys2Proof.Machine

/-! ## Reset -/

/-- 10_state.md R34: every element right after reset, and what DIGEST then reads. R34 leaves TABLE unspecified, and so
does this statement. -/
def Obligations.ResetStateHasItsValues : Prop :=
  State.reset.reg = 0xFFFFFFFF#32 ∧ State.reset.seed = 0x00000000#32 ∧ State.reset.tblIndex = 0x00#8 ∧
    State.reset.errIllegal = false ∧ State.reset.errNotReady = false ∧ State.reset.ready = false ∧
    (∀ i : Byte, entryAt State.reset.build i = false) ∧ readReg State.reset .digest = 0x00000000#32

/-- 70_reset_and_hazards.md R180: asserting rst_n gives every element its reset value, from any state; the builder is
then held; releasing rst_n changes nothing else. -/
def Obligations.AssertedResetRestoresAndHolds : Prop :=
  (∀ (s : State) (rest : List Event), s.events = .assertReset :: rest →
    ∃ t, step s = .next t ∧ t.reg = 0xFFFFFFFF#32 ∧ t.seed = 0x00000000#32 ∧ t.tblIndex = 0x00#8 ∧
      t.errIllegal = false ∧ t.errNotReady = false ∧ t.ready = false ∧
      (∀ i : Byte, entryAt t.build i = false) ∧ t.rstN = false ∧ t.events = rest) ∧
  (∀ (s : State) (picks : List Byte) (rest : List Event), s.rstN = false → s.events = .build picks :: rest →
    step s = .next { s with events := rest }) ∧
  (∀ s : State, s.rstN = false → s.events = [] → step s = .next s) ∧
  (∀ (s : State) (rest : List Event), s.events = .releaseReset :: rest →
    step s = .next { s with rstN := true, events := rest })

/-- 70_reset_and_hazards.md R182: while rst_n is asserted the host port has no step. The refusal's name is the model's
(log entry 7). -/
def Obligations.NoHostStepDuringReset : Prop :=
  ∀ (s : State) (a : Access) (rest : List Event), s.rstN = false → s.events = .access a :: rest →
    step s = .refused .accessDuringReset

/-- Nothing but an access during reset stops the machine (60_exceptions.md R166, 41_accumulator.md R138, R182). -/
def Obligations.StepStopsOnlyAtAccessDuringReset : Prop :=
  ∀ s : State,
    (∃ t, step s = .next t) ∨
      (s.rstN = false ∧ (∃ (a : Access) (rest : List Event), s.events = .access a :: rest) ∧
        step s = .refused .accessDuringReset)

/-! ## The invariant -/

/-- The invariant holds right after reset. Of the TABLE entries it speaks only where BUILD says written. -/
def Obligations.ResetMeetsInvariant : Prop := State.reset.Inv

/-- Every step, from any state that meets the invariant, keeps it: written entries hold T (R103), READY is 1 exactly when
all 256 are written (R27), and a machine held in reset is at its reset values (R180). That these include TABLE all zero
and no response kept is the model's choice (log entries 4 and 6): R34 and R28 leave TABLE unspecified. -/
def Obligations.EveryStepKeepsInvariant : Prop :=
  ∀ s t : State, s.Inv → step s = .next t → t.Inv

/-- 10_state.md R28: while READY = 1, TABLE[i] = T(i) for every i. -/
def Obligations.ReadyTableIsT : Prop :=
  ∀ s : State, s.Inv → s.ready = true → ∀ i : Byte, entryAt s.table i = tableEntry i

/-! ## Encoding -/

/-- 30_encoding.md R86: the all-zero word is NOP, and writing it to CMD has no effect but the response. -/
def Obligations.ZeroWordIsNop : Prop :=
  decode 0x00000000#32 = .command .nop ∧
  ∀ (s : State) (rest : List Event), s.rstN = true → s.events = .access (cmdWrite 0x00000000#32) :: rest →
    step s = .next { s with events := rest, lastResponse := some writeResponse }

/-- 30_encoding.md R90: its whole table, source, word and decoding. -/
def Obligations.EncodingExamplesDecode : Prop :=
  assemble (.upd3 0x31 0x32 0x33) = some 0x13333231#32 ∧
    decode 0x13333231#32 = .command (.upd3 0x31#8 0x32#8 0x33#8) ∧
  assemble (.upd2 0x38 0x39) = some 0x12003938#32 ∧ decode 0x12003938#32 = .command (.upd2 0x38#8 0x39#8) ∧
  assemble (.upd1 0x67) = some 0x11000067#32 ∧ decode 0x11000067#32 = .command (.upd1 0x67#8) ∧
  assemble (.upd1 0xFF) = some 0x110000FF#32 ∧ decode 0x110000FF#32 = .command (.upd1 0xFF#8) ∧
  assemble .init = some 0x01000000#32 ∧ decode 0x01000000#32 = .command .init ∧
  decode 0x01000001#32 = .illegal .reservedLane ∧
  decode 0x11000100#32 = .illegal .reservedLane ∧
  decode 0x12010000#32 = .illegal .reservedLane ∧
  decode 0x14000000#32 = .illegal .unassignedOpcode ∧
  decode 0xFFFFFFFF#32 = .illegal .unassignedOpcode ∧
  decode 0x13FFFFFF#32 = .command (.upd3 0xFF#8 0xFF#8 0xFF#8)

/-- Decoding the word of any command gives the command back, every operand at every value (R84, R87). -/
def Obligations.DecodeInvertsEncode : Prop :=
  ∀ i : Instr, i.wellFormed = true → decode (encode i) = .command i

/-- A word that decodes to a command is that command's one word (R84, R87). -/
def Obligations.EncodeInvertsDecode : Prop :=
  ∀ (w : Word) (i : Instr), decode w = .command i → encode i = w

/-- 30_encoding.md R84, Decode(w): the pseudocode's cases, each operand slice as R84 writes it, and the match and mask
form: a word decodes to a command exactly when it matches a row, its own command's row, and no word matches two rows. -/
def Obligations.DecodeIsTheOpcodeMap : Prop :=
  (∀ (w : Word) (op : Byte) (opd : BitVec 24), op = w.extractLsb' 24 8 → opd = w.extractLsb' 0 24 →
    (op = 0x00#8 → decode w = if opd = 0#24 then .command .nop else .illegal .reservedLane) ∧
    (op = 0x01#8 → decode w = if opd = 0#24 then .command .init else .illegal .reservedLane) ∧
    (op = 0x02#8 → decode w = if opd = 0#24 then .command .clrerr else .illegal .reservedLane) ∧
    (op = 0x10#8 → decode w = if opd = 0#24 then .command .upd0 else .illegal .reservedLane) ∧
    (op = 0x11#8 → decode w =
      if opd.extractLsb' 8 16 = 0#16 then .command (.upd1 (opd.extractLsb' 0 8)) else .illegal .reservedLane) ∧
    (op = 0x12#8 → decode w =
      if opd.extractLsb' 16 8 = 0#8 then .command (.upd2 (opd.extractLsb' 0 8) (opd.extractLsb' 8 8))
      else .illegal .reservedLane) ∧
    (op = 0x13#8 → decode w =
      .command (.upd3 (opd.extractLsb' 0 8) (opd.extractLsb' 8 8) (opd.extractLsb' 16 8))) ∧
    (op ∉ [0x00#8, 0x01#8, 0x02#8, 0x10#8, 0x11#8, 0x12#8, 0x13#8] → decode w = .illegal .unassignedOpcode)) ∧
  opcodeTable =
    [⟨"NOP", 0x00000000#32, 0xFFFFFFFF#32⟩, ⟨"INIT", 0x01000000#32, 0xFFFFFFFF#32⟩,
     ⟨"CLRERR", 0x02000000#32, 0xFFFFFFFF#32⟩, ⟨"UPD0", 0x10000000#32, 0xFFFFFFFF#32⟩,
     ⟨"UPD1", 0x11000000#32, 0xFFFFFF00#32⟩, ⟨"UPD2", 0x12000000#32, 0xFFFF0000#32⟩,
     ⟨"UPD3", 0x13000000#32, 0xFF000000#32⟩] ∧
  (∀ (w : Word) (i : Instr), decode w = .command i → opcodeRow i ∈ opcodeTable ∧ w &&& (opcodeRow i).maskBits = (opcodeRow i).matchBits) ∧
  (∀ w : Word, (∃ r ∈ opcodeTable, w &&& r.maskBits = r.matchBits) ↔ ∃ i, decode w = .command i) ∧
  (∀ (w : Word) (r r' : OpcodeRow), r ∈ opcodeTable → r' ∈ opcodeTable →
    w &&& r.maskBits = r.matchBits → w &&& r'.maskBits = r'.matchBits → r = r')

/-- 30_encoding.md R85: which words are ILLEGAL, how many opcodes are unassigned, and what an ILLEGAL word does. -/
def Obligations.IllegalWordsAndTheirEffect : Prop :=
  (∀ w : Word, (∃ why, decode w = .illegal why) ↔
    (w.extractLsb' 24 8 ∉ [0x00#8, 0x01#8, 0x02#8, 0x10#8, 0x11#8, 0x12#8, 0x13#8] ∨
      (w.extractLsb' 24 8 ∈ [0x00#8, 0x01#8, 0x02#8, 0x10#8] ∧ w.extractLsb' 0 24 ≠ 0#24) ∨
      (w.extractLsb' 24 8 = 0x11#8 ∧ w.extractLsb' 8 16 ≠ 0#16) ∨
      (w.extractLsb' 24 8 = 0x12#8 ∧ w.extractLsb' 16 8 ≠ 0#8))) ∧
  (allEntries.filter fun op => op ∉ [0x00#8, 0x01#8, 0x02#8, 0x10#8, 0x11#8, 0x12#8, 0x13#8]).length = 249 ∧
  (∀ (w : Word) (why : IllegalReason) (s : State), decode w = .illegal why →
    execCmd w s = .next { s with errIllegal := true })

/-- The assembler's words, for operands up to 0xFF, and its refusal of a larger one (R87). -/
def Obligations.AssemblerWordsAndErrors : Prop :=
  assemble .nop = some 0x00000000#32 ∧ assemble .init = some 0x01000000#32 ∧
  assemble .clrerr = some 0x02000000#32 ∧ assemble .upd0 = some 0x10000000#32 ∧
  (∀ b0 : Nat, assemble (.upd1 b0) =
    if b0 ≤ 0xFF then some (0x11000000#32 ||| BitVec.ofNat 32 b0) else none) ∧
  (∀ b0 b1 : Nat, assemble (.upd2 b0 b1) =
    if b0 ≤ 0xFF ∧ b1 ≤ 0xFF then some (0x12000000#32 ||| BitVec.ofNat 32 b1 <<< 8 ||| BitVec.ofNat 32 b0)
    else none) ∧
  (∀ b0 b1 b2 : Nat, assemble (.upd3 b0 b1 b2) =
    if b0 ≤ 0xFF ∧ b1 ≤ 0xFF ∧ b2 ≤ 0xFF then
      some (0x13000000#32 ||| BitVec.ofNat 32 b2 <<< 16 ||| BitVec.ofNat 32 b1 <<< 8 ||| BitVec.ofNat 32 b0)
    else none)

/-- `upd S` sends S's bytes, all of them and in order, and every command of it processes bytes (R89). -/
def Obligations.UpdSendsItsBytesInOrder : Prop :=
  ∀ bytes : List Byte,
    (updCommands bytes).flatMap dataBytes = bytes ∧ ∀ i ∈ updCommands bytes, needsTable i = true

/-! ## The table -/

/-- 40_table_generator.md R100: BitStep's two cases, T as eight bit steps, its corner cases and its example. -/
def Obligations.TableEntryIsEightBitSteps : Prop :=
  (∀ r : Word, r.toNat % 2 = 1 → bitStep r = (r >>> 1) ^^^ 0x82F63B78#32) ∧
  (∀ r : Word, r.toNat % 2 = 0 → bitStep r = r >>> 1) ∧
  (∀ i : Byte, tableEntry i = bitStep^[8] (i.setWidth 32)) ∧
  tableEntry 0#8 = 0x00000000#32 ∧ tableEntry 255#8 = 0xAD7D5351#32 ∧ tableEntry 1#8 = 0xF26B8303#32

/-- 40_table_generator.md R102: the source's two invariants, the entry 0x80, and linearity over XOR, which holds because
BitStep is linear. -/
def Obligations.TableInvariantsAndLinearity : Prop :=
  tableEntry 0#8 = 0x00000000#32 ∧ tableEntry 255#8 = 0xAD7D5351#32 ∧
  bitSteps 7 0x80#32 = 1#32 ∧ tableEntry 0x80#8 = 0x82F63B78#32 ∧
  (∀ a b : Word, bitStep (a ^^^ b) = bitStep a ^^^ bitStep b) ∧
  (∀ a b : Byte, tableEntry (a ^^^ b) = tableEntry a ^^^ tableEntry b)

/-- One step of the builder at READY = 0: exactly the picked unwritten entries get T, READY is set by the step that
writes the last, and nothing else changes; at READY = 1 it has no step (R103). -/
def Obligations.BuilderStepWritesPickedEntries : Prop :=
  (∀ (s : State) (picks : List Byte) (rest : List Event),
    s.rstN = true → s.ready = false → s.events = .build picks :: rest →
    ∃ t, step s = .next t ∧
      t = { s with events := rest, ready := t.ready, table := t.table, build := t.build } ∧
      (∀ i : Byte, entryAt t.build i = true ↔ entryAt s.build i = true ∨ i ∈ picks) ∧
      (∀ i : Byte, entryAt t.table i =
        if i ∈ picks ∧ entryAt s.build i = false then tableEntry i else entryAt s.table i) ∧
      (t.ready = true ↔ ∀ i : Byte, entryAt t.build i = true)) ∧
  (∀ (s : State) (picks : List Byte) (rest : List Event),
    s.ready = true → s.events = .build picks :: rest → step s = .next { s with events := rest })

/-- The idle machine's builder finishes what is left in one atomic step, a schedule R103 allows (log entry 2). -/
def Obligations.IdleBuilderCompletesTheTable : Prop :=
  ∀ s : State, s.Inv → s.rstN = true → s.ready = false → s.events = [] →
    step s = .next { s with ready := true, table := fullTable, build := Vector.replicate 256 true }

/-- 40_table_generator.md R105: the build completes. Whatever accesses and builder steps are presented, the table is
ready once they are done and the builder has had its turn (that it has it then is the model's: log entry 2). -/
def Obligations.BuilderFinishesInEveryRun : Prop :=
  ∀ s : State, s.rstN = true → (∀ e ∈ s.events, e.noReset) →
    ∃ t, run (s.events.length + 1) s = .next t ∧ t.ready = true ∧ t.events = []

/-- Once READY = 1, TABLE and READY do not change until reset; at any READY no host access writes TABLE, READY or BUILD;
and only reset writes READY to 0 (R104). -/
def Obligations.ReadyTableIsImmutable : Prop :=
  (∀ s t : State, s.ready = true → s.events.head? ≠ some .assertReset → step s = .next t →
    t.ready = true ∧ t.table = s.table) ∧
  (∀ (s t : State) (a : Access) (rest : List Event), s.events = .access a :: rest → step s = .next t →
    t.table = s.table ∧ t.ready = s.ready ∧ t.build = s.build) ∧
  (∀ s t : State, step s = .next t → s.ready = true → t.ready = false → s.events.head? = some .assertReset)

/-- 40_table_generator.md R107, TblRead: its two cases, its corner cases and its example as two accesses. -/
def Obligations.TableReadPort : Prop :=
  (∀ (s : State) (idx : Byte), s.ready = false → tblRead s idx = 0x00000000#32) ∧
  (∀ (s : State) (idx : Byte), s.Inv → s.ready = true → tblRead s idx = tableEntry idx) ∧
  (∀ s : State, s.Inv → tblRead s 0#8 = 0x00000000#32) ∧
  (∀ s : State, s.Inv → s.ready = true → tblRead s 255#8 = 0xAD7D5351#32) ∧
  (∀ (s : State) (rest : List Event), s.Inv → s.ready = true → s.rstN = true →
    s.events = lineEvents (tblLines 0x80#32) ++ rest →
    run 2 s = .next { s with
      tblIndex := 0x80#8, events := rest, lastResponse := some (readResponse 0x82F63B78#32) })

/-- The entries of TABLE that are not written yet are not observable: two states that differ only there give the same
outcome, and next states that again differ only there (R28, 93_implementation_defined.md X1). -/
def Obligations.UnwrittenEntriesAreUnobservable : Prop :=
  ∀ s t : State, s.readyWhenBuilt → s.sameButUnwritten t →
    (∀ s', step s = .next s' → ∃ t', step t = .next t' ∧ s'.sameButUnwritten t') ∧
    (∀ r, step s = .refused r → step t = .refused r)

/-! ## The step function of the CRC -/

/-- 41_accumulator.md R120: Step over a table, and over the finished one. -/
def Obligations.StepLooksUpAndShifts : Prop :=
  (∀ (t : Vector Word 256) (r : Word) (b : Byte),
    stepByte t r b = t[((r ^^^ b.setWidth 32) &&& 0xFF#32).toNat % 256]'(Nat.mod_lt _ (by decide)) ^^^ (r >>> 8)) ∧
  (∀ (s : State) (r : Word) (b : Byte), s.Inv → s.ready = true →
    stepByte s.table r b = tableEntry (((r ^^^ b.setWidth 32) &&& 0xFF#32).setWidth 8) ^^^ (r >>> 8))

/-- 41_accumulator.md R121: the table-driven step and the bit-serial one are the same function. -/
def Obligations.TableStepEqualsBitSerialStep : Prop :=
  ∀ (r : Word) (b : Byte), stepByte fullTable r b = bitStep^[8] (r ^^^ b.setWidth 32)

/-- 41_accumulator.md R122: Fold's two equations, and so its law on a concatenation. -/
def Obligations.FoldEquations : Prop :=
  (∀ (t : Vector Word 256) (r : Word), foldBytes t r [] = r) ∧
  (∀ (t : Vector Word 256) (r : Word) (bytes : List Byte) (b : Byte),
    foldBytes t r (bytes ++ [b]) = stepByte t (foldBytes t r bytes) b) ∧
  (∀ (t : Vector Word 256) (r : Word) (as bs : List Byte),
    foldBytes t r (as ++ bs) = foldBytes t (foldBytes t r as) bs)

/-! ## The commands -/

/-- 41_accumulator.md R124, NOP: its encoding, its effect, its corner case. -/
def Obligations.NopRule : Prop :=
  (∀ w : Word, decode w = .command .nop ↔ w = 0x00000000#32) ∧
  (∀ s : State, exec .nop s = .next s) ∧
  (∀ w : Word, w.extractLsb' 24 8 = 0x00#8 → w.extractLsb' 0 24 ≠ 0#24 → decode w = .illegal .reservedLane)

/-- 41_accumulator.md R125, INIT: its encoding, its effect at any READY with every other element unchanged, its corner
cases and its example. -/
def Obligations.InitRule : Prop :=
  (∀ w : Word, decode w = .command .init ↔ w = 0x01000000#32) ∧
  (∀ s : State, exec .init s = .next { s with reg := ~~~s.seed }) ∧
  (∀ s : State, s.seed = 0x00000000#32 → exec .init s = .next { s with reg := 0xFFFFFFFF#32 }) ∧
  (∀ s : State, s.seed = 0xFFFFFFFF#32 → exec .init s = .next { s with reg := 0x00000000#32 }) ∧
  (∀ s : State, s.seed = readReg s .digest → exec .init s = .next s) ∧
  (∀ s : State, execAll [.init, .init] s = exec .init s) ∧
  (∀ s : State, s.seed = 0x12345678#32 →
    ∃ t, exec .init s = .next t ∧ t.reg = 0xEDCBA987#32 ∧ readReg t .digest = 0x12345678#32)

/-- 41_accumulator.md R126, CLRERR: its encoding, its effect at any READY with every other element unchanged, the ILLEGAL
form with a reserved bit, its corner case and its example. -/
def Obligations.ClrerrRule : Prop :=
  (∀ w : Word, decode w = .command .clrerr ↔ w = 0x02000000#32) ∧
  (∀ s : State, exec .clrerr s = .next { s with errIllegal := false, errNotReady := false }) ∧
  (∀ (w : Word) (s : State), w.extractLsb' 24 8 = 0x02#8 → w.extractLsb' 0 24 ≠ 0#24 →
    execCmd w s = .next { s with errIllegal := true }) ∧
  (∀ s : State, s.errIllegal = false → s.errNotReady = false → exec .clrerr s = .next s) ∧
  (∀ s : State, statusWord s = 0x00000007#32 →
    ∃ t, exec .clrerr s = .next t ∧ statusWord t = 0x00000001#32)

/-- 41_accumulator.md R127, UPD0: its encoding, and no state change at any READY. -/
def Obligations.UpdZeroRule : Prop :=
  (∀ w : Word, decode w = .command .upd0 ↔ w = 0x10000000#32) ∧
  (∀ s : State, exec .upd0 s = .next { s with reg := foldBytes s.table s.reg [] }) ∧
  (∀ s : State, exec .upd0 s = .next s)

/-- 41_accumulator.md R128, UPD1: its encoding, its effect at READY = 1, NotReady at READY = 0, every other element
unchanged in both, the ILLEGAL form, its corner cases and its example (over the finished table). -/
def Obligations.UpdOneRule : Prop :=
  (∀ w : Word, w &&& 0xFFFFFF00#32 = 0x11000000#32 → decode w = .command (.upd1 (w.extractLsb' 0 8))) ∧
  (∀ (w : Word) (b0 : Byte), decode w = .command (.upd1 b0) → w &&& 0xFFFFFF00#32 = 0x11000000#32 ∧ b0 = w.extractLsb' 0 8) ∧
  (∀ w : Word, w.extractLsb' 24 8 = 0x11#8 → w.extractLsb' 8 16 ≠ 0#16 → decode w = .illegal .reservedLane) ∧
  (∀ (s : State) (b0 : Byte), s.ready = true →
    exec (.upd1 b0) s = .next { s with reg := stepByte s.table s.reg b0 }) ∧
  (∀ (s : State) (b0 : Byte), s.ready = false → exec (.upd1 b0) s = .next { s with errNotReady := true }) ∧
  (∀ (s : State) (b0 : Byte), s.ready = true →
    execAll [.upd1 b0, .upd1 b0] s = .next { s with reg := stepByte s.table (stepByte s.table s.reg b0) b0 }) ∧
  stepByte fullTable 0x00000000#32 0x00#8 = 0x00000000#32 ∧
  stepByte fullTable 0xFFFFFFFF#32 0xFF#8 = 0x00FFFFFF#32 ∧
  stepByte fullTable 0xFFFFFFFF#32 0x00#8 = 0xAD82ACAE#32 ∧
  stepByte fullTable 0xFFFFFFFF#32 0x00#8 = tableEntry 255#8 ^^^ 0x00FFFFFF#32 ∧
  stepByte fullTable 0xFFFFFFFF#32 0x31#8 = 0x6F0A661C#32

/-- 41_accumulator.md R129, UPD2: its encoding, its effect at READY = 1, NotReady at READY = 0, every other element
unchanged in both, the ILLEGAL form, that it equals two UPD1, its corner cases and its example. -/
def Obligations.UpdTwoRule : Prop :=
  (∀ w : Word, w &&& 0xFFFF0000#32 = 0x12000000#32 →
    decode w = .command (.upd2 (w.extractLsb' 0 8) (w.extractLsb' 8 8))) ∧
  (∀ (w : Word) (b0 b1 : Byte), decode w = .command (.upd2 b0 b1) →
    w &&& 0xFFFF0000#32 = 0x12000000#32 ∧ b0 = w.extractLsb' 0 8 ∧ b1 = w.extractLsb' 8 8) ∧
  (∀ w : Word, w.extractLsb' 24 8 = 0x12#8 → w.extractLsb' 16 8 ≠ 0#8 → decode w = .illegal .reservedLane) ∧
  (∀ (s : State) (b0 b1 : Byte), s.ready = true →
    exec (.upd2 b0 b1) s = .next { s with reg := stepByte s.table (stepByte s.table s.reg b0) b1 }) ∧
  (∀ (s : State) (b0 b1 : Byte), s.ready = false →
    exec (.upd2 b0 b1) s = .next { s with errNotReady := true }) ∧
  (∀ (s : State) (b0 b1 : Byte), exec (.upd2 b0 b1) s = execAll [.upd1 b0, .upd1 b1] s) ∧
  foldBytes fullTable 0xFFFFFFFF#32 [0x31#8, 0x32#8] = 0x8CAA3B9F#32 ∧
  foldBytes fullTable 0xFFFFFFFF#32 [0x32#8, 0x31#8] = 0xAB1D60F2#32 ∧
  foldBytes fullTable 0xFFFFFFFF#32 [0xFF#8, 0xFF#8] = 0x0000FFFF#32

/-- 41_accumulator.md R130, UPD3: its encoding, which has no reserved bits, its effect at READY = 1, NotReady at READY = 0,
every other element unchanged in both, its corner cases and its example. -/
def Obligations.UpdThreeRule : Prop :=
  (∀ w : Word, w &&& 0xFF000000#32 = 0x13000000#32 →
    decode w = .command (.upd3 (w.extractLsb' 0 8) (w.extractLsb' 8 8) (w.extractLsb' 16 8))) ∧
  (∀ (w : Word) (b0 b1 b2 : Byte), decode w = .command (.upd3 b0 b1 b2) →
    w &&& 0xFF000000#32 = 0x13000000#32 ∧
      b0 = w.extractLsb' 0 8 ∧ b1 = w.extractLsb' 8 8 ∧ b2 = w.extractLsb' 16 8) ∧
  (∀ (s : State) (b0 b1 b2 : Byte), s.ready = true →
    exec (.upd3 b0 b1 b2) s =
      .next { s with reg := stepByte s.table (stepByte s.table (stepByte s.table s.reg b0) b1) b2 }) ∧
  (∀ (s : State) (b0 b1 b2 : Byte), s.ready = false →
    exec (.upd3 b0 b1 b2) s = .next { s with errNotReady := true }) ∧
  foldBytes fullTable 0xFFFFFFFF#32 [0xFF#8, 0xFF#8, 0xFF#8] = 0x000000FF#32 ∧
  foldBytes fullTable 0x00000000#32 [0x00#8, 0x00#8, 0x00#8] = 0x00000000#32 ∧
  foldBytes fullTable 0x12345678#32 [0x78#8, 0x56#8, 0x34#8] = 0x00000012#32 ∧
  foldBytes fullTable 0xFFFFFFFF#32 [0x31#8, 0x32#8, 0x33#8] = 0xEF84D04D#32

/-- 41_accumulator.md R138: every command completes, in every state, whatever REG, SEED and the operands. -/
def Obligations.EveryCommandCompletes : Prop :=
  ∀ (i : Instr) (s : State), ∃ t, exec i s = .next t

/-- What every command leaves unchanged (R123 to R130): all but REG and the error bits always; REG but for INIT and an
update that READY lets run; ERR_ILLEGAL but for CLRERR; ERR_NOTREADY but for CLRERR and a refused update. -/
def Obligations.CommandFrame : Prop :=
  ∀ (i : Instr) (s t : State), exec i s = .next t →
    t = { s with reg := t.reg, errIllegal := t.errIllegal, errNotReady := t.errNotReady } ∧
    (i ≠ .init → ¬(needsTable i = true ∧ s.ready = true) → t.reg = s.reg) ∧
    (i ≠ .clrerr → t.errIllegal = s.errIllegal) ∧
    (i ≠ .clrerr → ¬(needsTable i = true ∧ s.ready = false) → t.errNotReady = s.errNotReady)

/-- What a command may read: only INIT reads SEED, no command reads TBL_INDEX, only UPD1 to UPD3 read TABLE, and neither
error bit, whatever its value, blocks a later command or alters anything but that same bit after it (R123,
60_exceptions.md R167). -/
def Obligations.CommandsReadOnlyTheirOperands : Prop :=
  (∀ (i : Instr) (s t : State) (v : Word), i ≠ .init → exec i s = .next t →
    exec i (s.setSeed v) = .next (t.setSeed v)) ∧
  (∀ (i : Instr) (s t : State) (x : Byte), exec i s = .next t →
    exec i (s.setTblIndex x) = .next (t.setTblIndex x)) ∧
  (∀ (i : Instr) (s t : State) (u : Vector Word 256), needsTable i = false ∨ s.ready = false →
    exec i s = .next t → exec i { s with table := u } = .next { t with table := u }) ∧
  (∀ (i : Instr) (s t : State) (b : Bool), exec i s = .next t →
    ∃ t', exec i (s.setErrIllegal b) = .next t' ∧ t' = { t with errIllegal := t'.errIllegal }) ∧
  (∀ (i : Instr) (s t : State) (b : Bool), exec i s = .next t →
    ∃ t', exec i (s.setErrNotReady b) = .next t' ∧ t' = { t with errNotReady := t'.errNotReady })

/-! ## The host port -/

/-- When the next event is the legal write of a word to CMD and the word decodes to a command, the step is `exec` of that
command, the event taken off and the access answered OKAY (R54, R80, R123); so `withFetchWord` makes the next step run the
command of a table word (log entry 12). -/
def Obligations.StepRunsTheDecodedCommand : Prop :=
  (∀ (s : State) (w : Word) (i : Instr) (rest : List Event),
    s.rstN = true → s.events = .access (cmdWrite w) :: rest → decode w = .command i → i.wellFormed = true →
    step s = exec i { s with events := rest, lastResponse := some ⟨.okay, none⟩ }) ∧
  (∀ (s : State) (nbits w : Nat) (i : Instr), decodeTableWord nbits w = some i →
    step (s.withFetchWord nbits w) = exec i { s with rstN := true, lastResponse := some ⟨.okay, none⟩ })

/-- 20_memory.md R52, 60_exceptions.md R162: a misshapen access, read or write and at any offset, answers ERROR with rdata 0
and changes no state; every legal one answers OKAY. -/
def Obligations.AccessShapeDecidesTheResponse : Prop :=
  (∀ (s : State) (a : Access) (rest : List Event), s.rstN = true → s.events = .access a :: rest →
    (a.size ≠ .four ∨ a.off.toNat % 4 ≠ 0) →
    step s = .next { s with events := rest, lastResponse := some ⟨.error, some 0x00000000#32⟩ }) ∧
  (∀ (s : State) (a : Access) (rest : List Event), s.rstN = true → s.events = .access a :: rest →
    a.size = .four → a.off.toNat % 4 = 0 →
    ∃ t rd, step s = .next t ∧ t.lastResponse = some ⟨.okay, rd⟩)

/-- 20_memory.md R53, RegRead: what each offset returns, answered OKAY, with no state changed. -/
def Obligations.LegalReadReturnsTheRegister : Prop :=
  ∀ (s : State) (off : Offset) (d : Word) (rest : List Event),
    s.rstN = true → s.events = .access ⟨.read, off, .four, d⟩ :: rest → off.toNat % 4 = 0 →
    step s = .next { s with
      events := rest
      lastResponse := some ⟨.okay, some (
        if off = 0x00#6 then 0x82F63B78#32
        else if off = 0x04#6 then
          (if s.errNotReady then 4#32 else 0#32) ||| (if s.errIllegal then 2#32 else 0#32) |||
            (if s.ready then 1#32 else 0#32)
        else if off = 0x08#6 then 0x00000000#32
        else if off = 0x0C#6 then s.seed
        else if off = 0x10#6 then s.reg
        else if off = 0x14#6 then ~~~s.reg
        else if off = 0x18#6 then s.tblIndex.setWidth 32
        else if off = 0x1C#6 then (if s.ready then entryAt s.table s.tblIndex else 0x00000000#32)
        else 0x00000000#32)⟩ }

/-- 20_memory.md R54, RegWrite: what a write to each offset does; it always answers OKAY. -/
def Obligations.LegalWriteHasItsEffect : Prop :=
  ∀ (s : State) (off : Offset) (v : Word) (rest : List Event),
    s.rstN = true → s.events = .access ⟨.write, off, .four, v⟩ :: rest → off.toNat % 4 = 0 →
    (step s =
      if off = 0x08#6 then execCmd v { s with events := rest, lastResponse := some ⟨.okay, none⟩ }
      else if off = 0x0C#6 then
        .next { s with events := rest, lastResponse := some ⟨.okay, none⟩, seed := v }
      else if off = 0x18#6 then
        .next { s with events := rest, lastResponse := some ⟨.okay, none⟩, tblIndex := v.extractLsb' 0 8 }
      else .next { s with events := rest, lastResponse := some ⟨.okay, none⟩ }) ∧
    ∃ t, step s = .next t ∧ t.lastResponse = some ⟨.okay, none⟩

/-- 10_state.md R22, R23: SEED keeps all 32 bits of what is written and reads them back; TBL_INDEX keeps bits 7:0 and
reads them zero-extended; neither write touches REG. -/
def Obligations.WrittenRegistersReadBack : Prop :=
  (∀ (s : State) (v : Word) (rest : List Event), s.rstN = true →
    s.events = lineEvents [wrLine .seed v, rdLine .seed] ++ rest →
    run 2 s = .next { s with seed := v, events := rest, lastResponse := some ⟨.okay, some v⟩ }) ∧
  (∀ (s : State) (v : Word) (rest : List Event), s.rstN = true →
    s.events = lineEvents [wrLine .tblIndex v, rdLine .tblIndex] ++ rest →
    run 2 s = .next { s with
      tblIndex := v.setWidth 8, events := rest, lastResponse := some ⟨.okay, some (v &&& 0xFF#32)⟩ })

/-- A read, of any shape and at any offset, changes no element; two reads in a row return the same; DIGEST and STATE are
complements of one another (20_memory.md R55, 41_accumulator.md R131). -/
def Obligations.ReadsHaveNoSideEffect : Prop :=
  (∀ (s : State) (a : Access) (rest : List Event),
    s.rstN = true → a.dir = .read → s.events = .access a :: rest →
    ∃ r, step s = .next { s with events := rest, lastResponse := some r }) ∧
  (∀ (s t u : State) (a : Access) (rest : List Event),
    s.rstN = true → a.dir = .read → s.events = .access a :: .access a :: rest →
    step s = .next t → step t = .next u → u.lastResponse = t.lastResponse) ∧
  (∀ s : State, readReg s .digest ^^^ readReg s .state = 0xFFFFFFFF#32)

/-! ## Errors -/

/-- 60_exceptions.md R160, IllegalCommand: its cause and effect, the response OKAY, and that nothing else raises it. -/
def Obligations.IllegalCommandSetsOnlyItsBit : Prop :=
  (∀ (s : State) (w : Word) (why : IllegalReason) (rest : List Event),
    s.rstN = true → s.events = .access (cmdWrite w) :: rest → decode w = .illegal why →
    step s = .next { s with errIllegal := true, events := rest, lastResponse := some ⟨.okay, none⟩ }) ∧
  (∀ s t : State, step s = .next t → s.errIllegal = false → t.errIllegal = true →
    ∃ e ∈ s.events.head?, e.issuesIllegal)

/-- 60_exceptions.md R161, NotReady: its cause and effect, the response OKAY, and that only UPD1 to UPD3 at READY = 0
raise it. -/
def Obligations.NotReadySetsOnlyItsBit : Prop :=
  (∀ (s : State) (w : Word) (i : Instr) (rest : List Event),
    s.rstN = true → s.events = .access (cmdWrite w) :: rest → decode w = .command i → needsTable i = true →
    s.ready = false →
    step s = .next { s with errNotReady := true, events := rest, lastResponse := some ⟨.okay, none⟩ }) ∧
  (∀ s t : State, step s = .next t → s.errNotReady = false → t.errNotReady = true →
    s.ready = false ∧ ∃ e ∈ s.events.head?, ∃ i, needsTable i = true ∧ e.issues i) ∧
  (∀ i : Instr, needsTable i = true ↔
    (∃ b0, i = .upd1 b0) ∨ (∃ b0 b1, i = .upd2 b0 b1) ∨ ∃ b0 b1 b2, i = .upd3 b0 b1 b2)

/-- 60_exceptions.md R165: of the conditions of one access the first in the order BusError, IllegalCommand, NotReady is
raised, and no other. -/
def Obligations.ErrorPriority : Prop :=
  (∀ (s : State) (a : Access) (rest : List Event), s.rstN = true → s.events = .access a :: rest →
    (a.size ≠ .four ∨ a.off.toNat % 4 ≠ 0) →
    ∃ t, step s = .next t ∧ t.errIllegal = s.errIllegal ∧ t.errNotReady = s.errNotReady ∧
      t.lastResponse = some ⟨.error, some 0x00000000#32⟩) ∧
  (∀ (s : State) (w : Word) (why : IllegalReason) (rest : List Event),
    s.rstN = true → s.events = .access (cmdWrite w) :: rest → decode w = .illegal why →
    ∃ t, step s = .next t ∧ t.errIllegal = true ∧ t.errNotReady = s.errNotReady ∧
      t.lastResponse = some ⟨.okay, none⟩) ∧
  (∀ (s : State) (w : Word) (i : Instr) (rest : List Event),
    s.rstN = true → s.events = .access (cmdWrite w) :: rest → decode w = .command i → needsTable i = true →
    s.ready = false →
    ∃ t, step s = .next t ∧ t.errIllegal = s.errIllegal ∧ t.errNotReady = true ∧
      t.lastResponse = some ⟨.okay, none⟩)

/-- The sticky bits are cleared only by CLRERR and by reset (R24, R25, R26, R167). -/
def Obligations.ErrorBitsClearedOnlyByClrerrOrReset : Prop :=
  ∀ s t : State, step s = .next t →
    (s.errIllegal = true ∧ t.errIllegal = false ∨ s.errNotReady = true ∧ t.errNotReady = false) →
    ∃ e ∈ s.events.head?, e = .assertReset ∨ e.issues .clrerr

/-- REG is written only by INIT, by UPD1 to UPD3 at READY = 1, and by reset; no register write loads it (R21). -/
def Obligations.RegWrittenOnlyByInitUpdatesAndReset : Prop :=
  ∀ s t : State, step s = .next t → t.reg ≠ s.reg →
    ∃ e ∈ s.events.head?,
      e = .assertReset ∨ e.issues .init ∨ ∃ i, needsTable i = true ∧ s.ready = true ∧ e.issues i

/-- SEED and TBL_INDEX are written only by a legal write to them and by reset; no command writes them (R22, R23, R54). -/
def Obligations.SeedAndIndexWrittenOnlyByTheirWrites : Prop :=
  (∀ s t : State, step s = .next t → t.seed ≠ s.seed →
    ∃ e ∈ s.events.head?, e = .assertReset ∨ ∃ v, e = .access ⟨.write, 0x0C#6, .four, v⟩ ∧ t.seed = v) ∧
  (∀ s t : State, step s = .next t → t.tblIndex ≠ s.tblIndex →
    ∃ e ∈ s.events.head?,
      e = .assertReset ∨ ∃ v : Word, e = .access ⟨.write, 0x18#6, .four, v⟩ ∧ t.tblIndex = v.extractLsb' 0 8)

/-! ## The checksum -/

/-- 41_accumulator.md R135 on commands: at READY = 1 any list of NOP and UPD0 to UPD3 leaves REG = Fold(REG, its bytes)
and nothing else changed, so any two splits of the same bytes give the same state. -/
def Obligations.EverySplitGivesTheSameRegister : Prop :=
  (∀ (cmds : List Instr) (s : State), s.ready = true → (∀ i ∈ cmds, i ≠ .init ∧ i ≠ .clrerr) →
    execAll cmds s = .next { s with reg := foldBytes s.table s.reg (cmds.flatMap dataBytes) }) ∧
  (∀ (cmds cmds' : List Instr) (s : State), s.ready = true →
    (∀ i ∈ cmds ++ cmds', i ≠ .init ∧ i ≠ .clrerr) →
    cmds.flatMap dataBytes = cmds'.flatMap dataBytes → execAll cmds s = execAll cmds' s)

/-- 41_accumulator.md R135 at the port: at READY = 1, whatever accesses and builder steps the events hold, if none is a
reset and none issues INIT, REG ends as the Fold of the bytes of the commands among them, in order. -/
def Obligations.RegisterFoldsTheBytesPresented : Prop :=
  ∀ s : State, s.ready = true → s.rstN = true →
    (∀ e ∈ s.events, e.noReset ∧ ¬e.issues .init) →
    ∃ t, run s.events.length s = .next t ∧ t.events = [] ∧
      t.reg = foldBytes s.table s.reg (s.events.flatMap eventBytes)

/-- 41_accumulator.md R134: at READY = 1 the host sequence `init k; upd S; digest` reads Crc32c(S, k) and adds no error
bit. -/
def Obligations.OneShotSequenceReadsCrc : Prop :=
  ∀ (s : State) (bytes : List Byte) (k : Word) (rest : List Event),
    s.Inv → s.ready = true → s.rstN = true →
    s.events = lineEvents (initLines k ++ updLines bytes ++ digestLines) ++ rest →
    ∃ t, run (initLines k ++ updLines bytes ++ digestLines).length s = .next t ∧
      t.lastResponse = some ⟨.okay, some (crc32c bytes k)⟩ ∧
      t.errIllegal = s.errIllegal ∧ t.errNotReady = s.errNotReady ∧ t.events = rest

/-- The same sequence at READY = 0, with no builder step in between, reads k: every byte is refused, and ERR_NOTREADY
says so (R134, 70_reset_and_hazards.md R184). -/
def Obligations.OneShotBeforeReadyLosesItsBytes : Prop :=
  ∀ (s : State) (bytes : List Byte) (k : Word) (rest : List Event),
    s.ready = false → s.rstN = true →
    s.events = lineEvents (initLines k ++ updLines bytes ++ digestLines) ++ rest →
    ∃ t, run (initLines k ++ updLines bytes ++ digestLines).length s = .next t ∧
      t.lastResponse = some ⟨.okay, some k⟩ ∧ t.errIllegal = s.errIllegal ∧
      (t.errNotReady = true ↔ s.errNotReady = true ∨ bytes ≠ []) ∧ t.events = rest

/-- 41_accumulator.md R136: the CRC of the empty input is its seed, as a function, at the port, and right after reset. -/
def Obligations.EmptyInputGivesTheSeed : Prop :=
  (∀ k : Word, crc32c [] k = k) ∧ crc32c [] 0x00000000#32 = 0x00000000#32 ∧
  (∀ (s : State) (k : Word) (rest : List Event), s.rstN = true →
    s.events = lineEvents (initLines k ++ digestLines) ++ rest →
    ∃ t, run 3 s = .next t ∧ t.lastResponse = some ⟨.okay, some k⟩) ∧
  readReg State.reset .digest = 0x00000000#32

/-- 41_accumulator.md R137: the CRC of a concatenation chains through the seed; writing a digest to SEED and issuing INIT
restores the REG it was read from; with the STATE value it gives the complement. -/
def Obligations.DigestChainsThroughTheSeed : Prop :=
  (∀ (as bs : List Byte) (k : Word), crc32c (as ++ bs) k = crc32c bs (crc32c as k)) ∧
  (∀ (s : State) (d : Word), d = readReg s .digest →
    exec .init (s.setSeed d) = .next { s with seed := d }) ∧
  (∀ s : State, exec .init (s.setSeed (readReg s .state)) = .next { s with seed := s.reg, reg := ~~~s.reg })

/-! ## The host's notation -/

/-- What each line of a host sequence does, to the host and through the port to CORE (R88). That a `wr` or `wr/N` line
leaves `h` as it is, and that of two equal labels the first counts, is the model's choice, which R88 leaves open (log
entry 14). -/
def Obligations.HostLinesHaveTheirMeaning : Prop :=
  (∀ (prog : List HostLine) (m : HostState) (off : Offset) (v : Word) (c : State),
    m.halted = false → m.core.rstN = true → off.toNat % 4 = 0 → prog[m.line]? = some (.wr .four off v) →
    regWrite off v (m.core.respond writeResponse) = .next c →
    hostStep prog .host m = .next { m with line := m.line + 1, resp := .okay, core := c }) ∧
  (∀ (prog : List HostLine) (m : HostState) (off : Offset),
    m.halted = false → m.core.rstN = true → off.toNat % 4 = 0 → prog[m.line]? = some (.rd .four off) →
    hostStep prog .host m = .next { m with
      line := m.line + 1, h := regRead m.core off, resp := .okay,
      core := m.core.respond ⟨.okay, some (regRead m.core off)⟩ }) ∧
  (∀ (prog : List HostLine) (m : HostState) (off : Offset) (size : Size) (v : Word),
    m.halted = false → m.core.rstN = true →
    (size ≠ .four ∨ off.toNat % 4 ≠ 0) → prog[m.line]? = some (.wr size off v) →
    hostStep prog .host m = .next { m with
      line := m.line + 1, resp := .error, core := m.core.respond ⟨.error, some 0#32⟩ }) ∧
  (∀ (prog : List HostLine) (m : HostState) (off : Offset) (size : Size),
    m.halted = false → m.core.rstN = true →
    (size ≠ .four ∨ off.toNat % 4 ≠ 0) → prog[m.line]? = some (.rd size off) →
    hostStep prog .host m = .next { m with
      line := m.line + 1, h := 0#32, resp := .error, core := m.core.respond ⟨.error, some 0#32⟩ }) ∧
  (∀ i : Instr, cmdLine i = .wr .four 0x08#6 (encode i)) ∧
  (∀ (prog : List HostLine) (m : HostState) (l : Nat),
    m.halted = false → prog[m.line]? = some (.label l) →
    hostStep prog .host m = .next { m with line := m.line + 1 }) ∧
  (∀ (prog : List HostLine) (m : HostState) (l : Nat) (mask val : Word),
    m.halted = false → prog[m.line]? = some (.bneM l mask val) → m.h &&& mask = val →
    hostStep prog .host m = .next { m with line := m.line + 1 }) ∧
  (∀ (prog : List HostLine) (m : HostState) (l k : Nat) (mask val : Word),
    m.halted = false → prog[m.line]? = some (.bneM l mask val) → m.h &&& mask ≠ val →
    prog.findIdx? (fun x => x == .label l) = some k → hostStep prog .host m = .next { m with line := k }) ∧
  (∀ (prog : List HostLine) (m : HostState),
    m.halted = false → prog[m.line]? = some .halt → hostStep prog .host m = .next { m with halted := true })

/-! ## Fairness -/

/-- The builder's last step happens within finite time (40_table_generator.md R105): in every fair run of CORE, from any
time at which rst_n is released and after which no event is an edge of it, READY becomes 1 and stays 1, whatever accesses
and builder steps are presented. What a fair run is: log entry 18. -/
def Obligations.FairRunsFinishTheBuild : Prop :=
  ∀ (events : Nat → Event) (core : Nat → State) (m : Nat), FairCoreRun events core →
    (core m).rstN = true → (∀ n, m ≤ n → (events n).noReset) →
    ∃ k, m ≤ k ∧ ∀ n, k ≤ n → (core n).ready = true

/-- A host loop that polls READY ends in every fair run (40_table_generator.md R105): wherever `wait_ready`, with a fresh
label, stands in a host sequence, a host that comes to it leaves it for the next line, with READY = 1 and the STATUS bit
it read set. What a fair run is: log entry 18. -/
def Obligations.WaitReadyEndsInEveryFairRun : Prop :=
  ∀ (before after : List HostLine) (l : Nat) (turns : Nat → HostTurn) (sys : Nat → HostState) (m : Nat),
    FairHostRun (before ++ waitReadyLines l ++ after) turns sys → HostLine.label l ∉ before →
    (sys m).halted = false → (sys m).core.rstN = true → (sys m).line = before.length →
    ∃ n, m ≤ n ∧ (sys n).line = before.length + 3 ∧ (sys n).halted = false ∧ (sys n).core.ready = true ∧
      (sys n).h &&& 0x1#32 = 0x1#32

/-- The host sequence `crc32c k, S` computes the checksum in every fair run (30_encoding.md R89; 41_accumulator.md R134):
wherever it stands in a host sequence, a host that comes to it, at any READY, leaves it for the next line with
h = Crc32c(S, k), and no error bit is added. What a fair run is: log entry 18. -/
def Obligations.CrcSequenceComputesInEveryFairRun : Prop :=
  ∀ (before after : List HostLine) (l : Nat) (k : Word) (bytes : List Byte) (turns : Nat → HostTurn)
    (sys : Nat → HostState) (m : Nat),
    FairHostRun (before ++ crc32cLines l k bytes ++ after) turns sys → HostLine.label l ∉ before →
    (sys m).halted = false → (sys m).core.rstN = true → (sys m).core.Inv → (sys m).line = before.length →
    ∃ n, m ≤ n ∧ (sys n).line = before.length + (crc32cLines l k bytes).length ∧ (sys n).halted = false ∧
      (sys n).resp = .okay ∧ (sys n).h = crc32c bytes k ∧
      (sys n).core.errIllegal = (sys m).core.errIllegal ∧ (sys n).core.errNotReady = (sys m).core.errNotReady
end

