-- ==== Sys2Proof/Laws/Encoding.lean ====
section
/-! SUPPORT. The command word and its four byte fields (30_encoding.md R81): a word is its fields, packing and taking apart
are inverse, and the reserved-lane tests in terms of the lanes. -/

namespace Sys2Proof

/-- A word is the packing of its four fields. -/
theorem packWord_fields (w : Word) : packWord (opField w) (lane2 w) (lane1 w) (lane0 w) = w := by
  unfold packWord opField lane2 lane1 lane0
  apply BitVec.eq_of_getLsbD_eq
  intro i hi
  simp
  grind

@[simp] theorem opField_packWord (op b2 b1 b0 : Byte) : opField (packWord op b2 b1 b0) = op := by
  unfold packWord opField
  ext i hi
  simp
  grind

@[simp] theorem lane2_packWord (op b2 b1 b0 : Byte) : lane2 (packWord op b2 b1 b0) = b2 := by
  unfold packWord lane2
  ext i hi
  simp
  grind

@[simp] theorem lane1_packWord (op b2 b1 b0 : Byte) : lane1 (packWord op b2 b1 b0) = b1 := by
  unfold packWord lane1
  ext i hi
  simp
  grind

@[simp] theorem lane0_packWord (op b2 b1 b0 : Byte) : lane0 (packWord op b2 b1 b0) = b0 := by
  unfold packWord lane0
  ext i hi
  simp
  grind

/-- The word as R87 writes it, its lanes shifted into place. -/
theorem packWord_eq_or (op b2 b1 b0 : Byte) :
    packWord op b2 b1 b0 =
      op.setWidth 32 <<< 24 ||| b2.setWidth 32 <<< 16 ||| b1.setWidth 32 <<< 8 ||| b0.setWidth 32 := by
  apply BitVec.eq_of_getLsbD_eq
  intro i hi
  unfold packWord
  simp
  grind

/-- OPERAND is 0 exactly when its three lanes are. -/
theorem operandField_eq_zero (w : Word) : operandField w = 0#24 ↔ lane0 w = 0#8 ∧ lane1 w = 0#8 ∧ lane2 w = 0#8 := by
  constructor
  · intro h
    have h0 : lane0 w = (operandField w).extractLsb' 0 8 := by
      unfold lane0 operandField; ext i hi; simp
    have h1 : lane1 w = (operandField w).extractLsb' 8 8 := by
      unfold lane1 operandField; ext i hi; simp
    have h2 : lane2 w = (operandField w).extractLsb' 16 8 := by
      unfold lane2 operandField; ext i hi; simp
    rw [h0, h1, h2, h]
    decide
  · rintro ⟨h0, h1, h2⟩
    rw [← packWord_fields w, h0, h1, h2]
    unfold operandField packWord
    ext i hi
    simp
    grind

/-- `OPERAND[23:8]` is 0 exactly when lanes 1 and 2 are. -/
theorem upperLanes_eq_zero (w : Word) : w.extractLsb' 8 16 = 0#16 ↔ lane1 w = 0#8 ∧ lane2 w = 0#8 := by
  constructor
  · intro h
    have h1 : lane1 w = (w.extractLsb' 8 16).extractLsb' 0 8 := by
      unfold lane1; ext i hi; simp; omega
    have h2 : lane2 w = (w.extractLsb' 8 16).extractLsb' 8 8 := by
      unfold lane2; ext i hi; simp; grind
    rw [h1, h2, h]
    decide
  · rintro ⟨h1, h2⟩
    rw [← packWord_fields w, h1, h2]
    unfold packWord
    ext i hi
    simp
    grind

/-- Two packed words are equal when their fields are. -/
theorem packWord_inj {op b2 b1 b0 op' b2' b1' b0' : Byte} :
    packWord op b2 b1 b0 = packWord op' b2' b1' b0' ↔ op = op' ∧ b2 = b2' ∧ b1 = b1' ∧ b0 = b0' := by
  constructor
  · intro h
    refine ⟨?_, ?_, ?_, ?_⟩
    · simpa using congrArg opField h
    · simpa using congrArg lane2 h
    · simpa using congrArg lane1 h
    · simpa using congrArg lane0 h
  · rintro ⟨rfl, rfl, rfl, rfl⟩
    rfl

end Sys2Proof
end

