-- ==== Sys2Proof/Laws/State.lean ====
section
/-! SUPPORT. One lemma per field per update of the state, so that no proof unfolds a record update. -/

namespace Sys2Proof.Machine

section setReg
variable (s : State) (v : Word)

@[simp] theorem State.setReg_reg : (s.setReg v).reg = v := rfl
@[simp] theorem State.setReg_seed : (s.setReg v).seed = s.seed := rfl
@[simp] theorem State.setReg_tblIndex : (s.setReg v).tblIndex = s.tblIndex := rfl
@[simp] theorem State.setReg_errIllegal : (s.setReg v).errIllegal = s.errIllegal := rfl
@[simp] theorem State.setReg_errNotReady : (s.setReg v).errNotReady = s.errNotReady := rfl
@[simp] theorem State.setReg_ready : (s.setReg v).ready = s.ready := rfl
@[simp] theorem State.setReg_table : (s.setReg v).table = s.table := rfl
@[simp] theorem State.setReg_build : (s.setReg v).build = s.build := rfl
@[simp] theorem State.setReg_rstN : (s.setReg v).rstN = s.rstN := rfl
@[simp] theorem State.setReg_events : (s.setReg v).events = s.events := rfl
@[simp] theorem State.setReg_lastResponse : (s.setReg v).lastResponse = s.lastResponse := rfl

end setReg

section setSeed
variable (s : State) (v : Word)

@[simp] theorem State.setSeed_reg : (s.setSeed v).reg = s.reg := rfl
@[simp] theorem State.setSeed_seed : (s.setSeed v).seed = v := rfl
@[simp] theorem State.setSeed_tblIndex : (s.setSeed v).tblIndex = s.tblIndex := rfl
@[simp] theorem State.setSeed_errIllegal : (s.setSeed v).errIllegal = s.errIllegal := rfl
@[simp] theorem State.setSeed_errNotReady : (s.setSeed v).errNotReady = s.errNotReady := rfl
@[simp] theorem State.setSeed_ready : (s.setSeed v).ready = s.ready := rfl
@[simp] theorem State.setSeed_table : (s.setSeed v).table = s.table := rfl
@[simp] theorem State.setSeed_build : (s.setSeed v).build = s.build := rfl
@[simp] theorem State.setSeed_rstN : (s.setSeed v).rstN = s.rstN := rfl
@[simp] theorem State.setSeed_events : (s.setSeed v).events = s.events := rfl
@[simp] theorem State.setSeed_lastResponse : (s.setSeed v).lastResponse = s.lastResponse := rfl

end setSeed

section setTblIndex
variable (s : State) (i : Byte)

@[simp] theorem State.setTblIndex_reg : (s.setTblIndex i).reg = s.reg := rfl
@[simp] theorem State.setTblIndex_seed : (s.setTblIndex i).seed = s.seed := rfl
@[simp] theorem State.setTblIndex_tblIndex : (s.setTblIndex i).tblIndex = i := rfl
@[simp] theorem State.setTblIndex_errIllegal : (s.setTblIndex i).errIllegal = s.errIllegal := rfl
@[simp] theorem State.setTblIndex_errNotReady : (s.setTblIndex i).errNotReady = s.errNotReady := rfl
@[simp] theorem State.setTblIndex_ready : (s.setTblIndex i).ready = s.ready := rfl
@[simp] theorem State.setTblIndex_table : (s.setTblIndex i).table = s.table := rfl
@[simp] theorem State.setTblIndex_build : (s.setTblIndex i).build = s.build := rfl
@[simp] theorem State.setTblIndex_rstN : (s.setTblIndex i).rstN = s.rstN := rfl
@[simp] theorem State.setTblIndex_events : (s.setTblIndex i).events = s.events := rfl
@[simp] theorem State.setTblIndex_lastResponse : (s.setTblIndex i).lastResponse = s.lastResponse := rfl

end setTblIndex

section setErrIllegal
variable (s : State) (b : Bool)

@[simp] theorem State.setErrIllegal_reg : (s.setErrIllegal b).reg = s.reg := rfl
@[simp] theorem State.setErrIllegal_seed : (s.setErrIllegal b).seed = s.seed := rfl
@[simp] theorem State.setErrIllegal_tblIndex : (s.setErrIllegal b).tblIndex = s.tblIndex := rfl
@[simp] theorem State.setErrIllegal_errIllegal : (s.setErrIllegal b).errIllegal = b := rfl
@[simp] theorem State.setErrIllegal_errNotReady : (s.setErrIllegal b).errNotReady = s.errNotReady := rfl
@[simp] theorem State.setErrIllegal_ready : (s.setErrIllegal b).ready = s.ready := rfl
@[simp] theorem State.setErrIllegal_table : (s.setErrIllegal b).table = s.table := rfl
@[simp] theorem State.setErrIllegal_build : (s.setErrIllegal b).build = s.build := rfl
@[simp] theorem State.setErrIllegal_rstN : (s.setErrIllegal b).rstN = s.rstN := rfl
@[simp] theorem State.setErrIllegal_events : (s.setErrIllegal b).events = s.events := rfl
@[simp] theorem State.setErrIllegal_lastResponse : (s.setErrIllegal b).lastResponse = s.lastResponse := rfl

end setErrIllegal

section setErrNotReady
variable (s : State) (b : Bool)

@[simp] theorem State.setErrNotReady_reg : (s.setErrNotReady b).reg = s.reg := rfl
@[simp] theorem State.setErrNotReady_seed : (s.setErrNotReady b).seed = s.seed := rfl
@[simp] theorem State.setErrNotReady_tblIndex : (s.setErrNotReady b).tblIndex = s.tblIndex := rfl
@[simp] theorem State.setErrNotReady_errIllegal : (s.setErrNotReady b).errIllegal = s.errIllegal := rfl
@[simp] theorem State.setErrNotReady_errNotReady : (s.setErrNotReady b).errNotReady = b := rfl
@[simp] theorem State.setErrNotReady_ready : (s.setErrNotReady b).ready = s.ready := rfl
@[simp] theorem State.setErrNotReady_table : (s.setErrNotReady b).table = s.table := rfl
@[simp] theorem State.setErrNotReady_build : (s.setErrNotReady b).build = s.build := rfl
@[simp] theorem State.setErrNotReady_rstN : (s.setErrNotReady b).rstN = s.rstN := rfl
@[simp] theorem State.setErrNotReady_events : (s.setErrNotReady b).events = s.events := rfl
@[simp] theorem State.setErrNotReady_lastResponse : (s.setErrNotReady b).lastResponse = s.lastResponse := rfl

end setErrNotReady

section setReady
variable (s : State) (b : Bool)

@[simp] theorem State.setReady_reg : (s.setReady b).reg = s.reg := rfl
@[simp] theorem State.setReady_seed : (s.setReady b).seed = s.seed := rfl
@[simp] theorem State.setReady_tblIndex : (s.setReady b).tblIndex = s.tblIndex := rfl
@[simp] theorem State.setReady_errIllegal : (s.setReady b).errIllegal = s.errIllegal := rfl
@[simp] theorem State.setReady_errNotReady : (s.setReady b).errNotReady = s.errNotReady := rfl
@[simp] theorem State.setReady_ready : (s.setReady b).ready = b := rfl
@[simp] theorem State.setReady_table : (s.setReady b).table = s.table := rfl
@[simp] theorem State.setReady_build : (s.setReady b).build = s.build := rfl
@[simp] theorem State.setReady_rstN : (s.setReady b).rstN = s.rstN := rfl
@[simp] theorem State.setReady_events : (s.setReady b).events = s.events := rfl
@[simp] theorem State.setReady_lastResponse : (s.setReady b).lastResponse = s.lastResponse := rfl

end setReady

section setEvents
variable (s : State) (es : List Event)

@[simp] theorem State.setEvents_reg : (s.setEvents es).reg = s.reg := rfl
@[simp] theorem State.setEvents_seed : (s.setEvents es).seed = s.seed := rfl
@[simp] theorem State.setEvents_tblIndex : (s.setEvents es).tblIndex = s.tblIndex := rfl
@[simp] theorem State.setEvents_errIllegal : (s.setEvents es).errIllegal = s.errIllegal := rfl
@[simp] theorem State.setEvents_errNotReady : (s.setEvents es).errNotReady = s.errNotReady := rfl
@[simp] theorem State.setEvents_ready : (s.setEvents es).ready = s.ready := rfl
@[simp] theorem State.setEvents_table : (s.setEvents es).table = s.table := rfl
@[simp] theorem State.setEvents_build : (s.setEvents es).build = s.build := rfl
@[simp] theorem State.setEvents_rstN : (s.setEvents es).rstN = s.rstN := rfl
@[simp] theorem State.setEvents_events : (s.setEvents es).events = es := rfl
@[simp] theorem State.setEvents_lastResponse : (s.setEvents es).lastResponse = s.lastResponse := rfl

end setEvents

section setRstN
variable (s : State) (b : Bool)

@[simp] theorem State.setRstN_reg : (s.setRstN b).reg = s.reg := rfl
@[simp] theorem State.setRstN_seed : (s.setRstN b).seed = s.seed := rfl
@[simp] theorem State.setRstN_tblIndex : (s.setRstN b).tblIndex = s.tblIndex := rfl
@[simp] theorem State.setRstN_errIllegal : (s.setRstN b).errIllegal = s.errIllegal := rfl
@[simp] theorem State.setRstN_errNotReady : (s.setRstN b).errNotReady = s.errNotReady := rfl
@[simp] theorem State.setRstN_ready : (s.setRstN b).ready = s.ready := rfl
@[simp] theorem State.setRstN_table : (s.setRstN b).table = s.table := rfl
@[simp] theorem State.setRstN_build : (s.setRstN b).build = s.build := rfl
@[simp] theorem State.setRstN_rstN : (s.setRstN b).rstN = b := rfl
@[simp] theorem State.setRstN_events : (s.setRstN b).events = s.events := rfl
@[simp] theorem State.setRstN_lastResponse : (s.setRstN b).lastResponse = s.lastResponse := rfl

end setRstN

section respond
variable (s : State) (r : Response)

@[simp] theorem State.respond_reg : (s.respond r).reg = s.reg := rfl
@[simp] theorem State.respond_seed : (s.respond r).seed = s.seed := rfl
@[simp] theorem State.respond_tblIndex : (s.respond r).tblIndex = s.tblIndex := rfl
@[simp] theorem State.respond_errIllegal : (s.respond r).errIllegal = s.errIllegal := rfl
@[simp] theorem State.respond_errNotReady : (s.respond r).errNotReady = s.errNotReady := rfl
@[simp] theorem State.respond_ready : (s.respond r).ready = s.ready := rfl
@[simp] theorem State.respond_table : (s.respond r).table = s.table := rfl
@[simp] theorem State.respond_build : (s.respond r).build = s.build := rfl
@[simp] theorem State.respond_rstN : (s.respond r).rstN = s.rstN := rfl
@[simp] theorem State.respond_events : (s.respond r).events = s.events := rfl
@[simp] theorem State.respond_lastResponse : (s.respond r).lastResponse = some r := rfl

end respond

section clearErrors
variable (s : State)

@[simp] theorem State.clearErrors_reg : s.clearErrors.reg = s.reg := rfl
@[simp] theorem State.clearErrors_seed : s.clearErrors.seed = s.seed := rfl
@[simp] theorem State.clearErrors_tblIndex : s.clearErrors.tblIndex = s.tblIndex := rfl
@[simp] theorem State.clearErrors_errIllegal : s.clearErrors.errIllegal = false := rfl
@[simp] theorem State.clearErrors_errNotReady : s.clearErrors.errNotReady = false := rfl
@[simp] theorem State.clearErrors_ready : s.clearErrors.ready = s.ready := rfl
@[simp] theorem State.clearErrors_table : s.clearErrors.table = s.table := rfl
@[simp] theorem State.clearErrors_build : s.clearErrors.build = s.build := rfl
@[simp] theorem State.clearErrors_rstN : s.clearErrors.rstN = s.rstN := rfl
@[simp] theorem State.clearErrors_events : s.clearErrors.events = s.events := rfl
@[simp] theorem State.clearErrors_lastResponse : s.clearErrors.lastResponse = s.lastResponse := rfl

end clearErrors

section assertReset
variable (s : State)

@[simp] theorem State.assertReset_reg : s.assertReset.reg = State.reset.reg := rfl
@[simp] theorem State.assertReset_seed : s.assertReset.seed = State.reset.seed := rfl
@[simp] theorem State.assertReset_tblIndex : s.assertReset.tblIndex = State.reset.tblIndex := rfl
@[simp] theorem State.assertReset_errIllegal : s.assertReset.errIllegal = State.reset.errIllegal := rfl
@[simp] theorem State.assertReset_errNotReady : s.assertReset.errNotReady = State.reset.errNotReady := rfl
@[simp] theorem State.assertReset_ready : s.assertReset.ready = State.reset.ready := rfl
@[simp] theorem State.assertReset_table : s.assertReset.table = State.reset.table := rfl
@[simp] theorem State.assertReset_build : s.assertReset.build = State.reset.build := rfl
@[simp] theorem State.assertReset_rstN : s.assertReset.rstN = false := rfl
@[simp] theorem State.assertReset_events : s.assertReset.events = s.events := rfl
@[simp] theorem State.assertReset_lastResponse : s.assertReset.lastResponse = State.reset.lastResponse := rfl

end assertReset

section releaseReset
variable (s : State)

@[simp] theorem State.releaseReset_reg : s.releaseReset.reg = s.reg := rfl
@[simp] theorem State.releaseReset_seed : s.releaseReset.seed = s.seed := rfl
@[simp] theorem State.releaseReset_tblIndex : s.releaseReset.tblIndex = s.tblIndex := rfl
@[simp] theorem State.releaseReset_errIllegal : s.releaseReset.errIllegal = s.errIllegal := rfl
@[simp] theorem State.releaseReset_errNotReady : s.releaseReset.errNotReady = s.errNotReady := rfl
@[simp] theorem State.releaseReset_ready : s.releaseReset.ready = s.ready := rfl
@[simp] theorem State.releaseReset_table : s.releaseReset.table = s.table := rfl
@[simp] theorem State.releaseReset_build : s.releaseReset.build = s.build := rfl
@[simp] theorem State.releaseReset_rstN : s.releaseReset.rstN = true := rfl
@[simp] theorem State.releaseReset_events : s.releaseReset.events = s.events := rfl
@[simp] theorem State.releaseReset_lastResponse : s.releaseReset.lastResponse = s.lastResponse := rfl

end releaseReset

section raiseError
variable (s : State)

@[simp] theorem State.raiseError_illegalCommand : s.raiseError .illegalCommand = s.setErrIllegal true := rfl
@[simp] theorem State.raiseError_notReady : s.raiseError .notReady = s.setErrNotReady true := rfl
@[simp] theorem State.raiseError_busError : s.raiseError .busError = s := rfl

end raiseError

/-- Two states are equal when all their fields are. -/
theorem State.ext_fields {s t : State} (h₁ : s.reg = t.reg) (h₂ : s.seed = t.seed) (h₃ : s.tblIndex = t.tblIndex)
    (h₄ : s.errIllegal = t.errIllegal) (h₅ : s.errNotReady = t.errNotReady) (h₆ : s.ready = t.ready)
    (h₇ : s.table = t.table) (h₈ : s.build = t.build) (h₉ : s.rstN = t.rstN) (h₁₀ : s.events = t.events)
    (h₁₁ : s.lastResponse = t.lastResponse) : s = t := by
  cases s; cases t; simp_all

end Sys2Proof.Machine
end

