-- ==== Sys2Proof/Laws/Ops.lean ====
section
/-! SUPPORT. What each shared operation can do, said once: the table accesses, the builder, the commands, the host port
and the step. Proofs cite these lemmas and do not unfold the operations. -/

namespace Sys2Proof.Machine

/-! The entries of a table. -/

theorem entryAt_setEntry_self {α : Type} (t : Vector α 256) (i : Byte) (v : α) :
    entryAt (setEntry t i v) i = v := by
  simp [entryAt, setEntry]

theorem entryAt_setEntry_ne {α : Type} (t : Vector α 256) {i j : Byte} (v : α) (h : i ≠ j) :
    entryAt (setEntry t i v) j = entryAt t j := by
  have h' : i.toNat ≠ j.toNat := fun e => h (BitVec.eq_of_toNat_eq e)
  simp [entryAt, setEntry, h']

theorem entryAt_setEntry {α : Type} (t : Vector α 256) (i j : Byte) (v : α) :
    entryAt (setEntry t i v) j = if i = j then v else entryAt t j := by
  split
  · next h => exact h ▸ entryAt_setEntry_self t i v
  · next h => exact entryAt_setEntry_ne t v h

theorem entryAt_replicate {α : Type} (v : α) (i : Byte) : entryAt (Vector.replicate 256 v) i = v := by
  simp [entryAt]

@[simp] theorem entryAt_tableOf {α : Type} (f : Byte → α) (i : Byte) : entryAt (tableOf f) i = f i := by
  simp [entryAt, tableOf, allEntries]

@[simp] theorem entryAt_fullTable (i : Byte) : entryAt fullTable i = tableEntry i := by
  simp [fullTable]

/-- Two tables with the same entries are equal. -/
theorem table_ext {α : Type} {t u : Vector α 256} (h : ∀ i : Byte, entryAt t i = entryAt u i) : t = u := by
  apply Vector.ext
  intro k hk
  have := h (BitVec.ofNat 8 k)
  simpa [entryAt, Nat.mod_eq_of_lt hk] using this

theorem mem_allEntries (i : Byte) : i ∈ allEntries := by
  simp only [allEntries, List.mem_map, List.mem_range]
  exact ⟨i.toNat, i.isLt, by simp⟩

theorem all_build_iff (b : Vector Bool 256) : b.all (fun x => x) = true ↔ ∀ i : Byte, entryAt b i = true := by
  rw [Vector.all_eq_true]
  constructor
  · intro h i
    exact h i.toNat i.isLt
  · intro h k hk
    have := h (BitVec.ofNat 8 k)
    simpa [entryAt, Nat.mod_eq_of_lt hk] using this

/-! The builder. -/

/-- Writing an entry touches TABLE and BUILD alone. -/
theorem writeEntry_others (s : State) (i : Byte) :
    s.writeEntry i = { s with table := (s.writeEntry i).table, build := (s.writeEntry i).build } := by
  unfold State.writeEntry
  split <;> rfl

theorem writeEntry_build (s : State) (i j : Byte) :
    entryAt (s.writeEntry i).build j = (entryAt s.build j || decide (i = j)) := by
  unfold State.writeEntry
  split
  · next h => by_cases e : i = j <;> simp_all
  · simp only [entryAt_setEntry]
    by_cases e : i = j <;> simp [e]

theorem writeEntry_table (s : State) (i j : Byte) :
    entryAt (s.writeEntry i).table j =
      if i = j ∧ entryAt s.build j = false then tableEntry j else entryAt s.table j := by
  unfold State.writeEntry
  split
  · next h => by_cases e : i = j <;> simp_all
  · next h =>
    simp only [entryAt_setEntry]
    by_cases e : i = j <;> simp_all

/-- What a run of entry writes leaves: TABLE and BUILD change at the picked entries that were not written, nothing else. -/
theorem writeEntries_spec (picks : List Byte) (s : State) :
    picks.foldl State.writeEntry s =
        { s with table := (picks.foldl State.writeEntry s).table, build := (picks.foldl State.writeEntry s).build } ∧
      ∀ j : Byte,
        entryAt (picks.foldl State.writeEntry s).build j = (entryAt s.build j || decide (j ∈ picks)) ∧
        entryAt (picks.foldl State.writeEntry s).table j =
          if j ∈ picks ∧ entryAt s.build j = false then tableEntry j else entryAt s.table j := by
  induction picks generalizing s with
  | nil => simp
  | cons i rest ih =>
    obtain ⟨hrest, hent⟩ := ih (s.writeEntry i)
    simp only [List.foldl_cons]
    refine ⟨?_, fun j => ?_⟩
    · rw [hrest, writeEntry_others s i]
    · obtain ⟨hb, ht⟩ := hent j
      rw [hb, ht, writeEntry_build, writeEntry_table]
      by_cases e : i = j
      · subst e
        by_cases hbi : entryAt s.build i = true <;> simp [hbi]
      · have e' : ¬ j = i := fun h => e h.symm
        simp [e, e']

/-- One builder step at READY = 0, whole. -/
theorem builderStep_notReady {picks : List Byte} {s : State} (h : s.ready = false) :
    ∃ t, builderStep picks s = t ∧
      t = { s with ready := t.ready, table := t.table, build := t.build } ∧
      (∀ j : Byte,
        entryAt t.build j = (entryAt s.build j || decide (j ∈ picks)) ∧
        entryAt t.table j =
          if j ∈ picks ∧ entryAt s.build j = false then tableEntry j else entryAt s.table j) ∧
      (t.ready = true ↔ ∀ j : Byte, entryAt t.build j = true) := by
  obtain ⟨hrest, hent⟩ := writeEntries_spec picks s
  refine ⟨_, rfl, ?_, ?_, ?_⟩
  · simp only [builderStep, h, Bool.false_eq_true, if_false, State.setReady]
    conv_lhs => rw [hrest]
  · intro j
    simpa [builderStep, h] using hent j
  · simp only [builderStep, h, Bool.false_eq_true, if_false, State.setReady_ready, State.setReady_build]
    exact all_build_iff _

/-- At READY = 1 the builder has no step. -/
theorem builderStep_ready {picks : List Byte} {s : State} (h : s.ready = true) : builderStep picks s = s := by
  simp [builderStep, h]

@[simp] theorem builderTurn_held {picks : List Byte} {s : State} (h : s.rstN = false) :
    builderTurn picks s = s := by
  simp [builderTurn, h]

@[simp] theorem builderTurn_released {picks : List Byte} {s : State} (h : s.rstN = true) :
    builderTurn picks s = builderStep picks s := by
  simp [builderTurn, h]

/-- At READY = 1 the builder's turn changes nothing. -/
theorem builderTurn_ready {picks : List Byte} {s : State} (h : s.ready = true) : builderTurn picks s = s := by
  unfold builderTurn
  rw [builderStep_ready h]
  split <;> rfl

/-- Finishing the build in one step is the builder's step on every index. -/
theorem finishBuild_eq_builderStep (s : State) : finishBuild s = builderStep allEntries s := by
  cases hd : s.ready with
  | true => rw [builderStep_ready hd, finishBuild, if_pos hd]
  | false =>
    obtain ⟨t, ht, e, hent, hrd⟩ := builderStep_notReady (picks := allEntries) hd
    have hb : ∀ i : Byte, entryAt t.build i = true := fun i => by rw [(hent i).1]; simp [mem_allEntries]
    have h1 : t.build = Vector.replicate 256 true :=
      table_ext fun i => by rw [hb, entryAt_replicate]
    have h2 : t.table = tableOf fun i => if entryAt s.build i then entryAt s.table i else tableEntry i := by
      apply table_ext
      intro i
      rw [(hent i).2, entryAt_tableOf]
      cases hi : entryAt s.build i <;> simp [mem_allEntries]
    rw [ht, e, hrd.2 hb, h1, h2, finishBuild, if_neg (by simp [hd])]

/-! The commands. -/

theorem updateBytes_ready {bytes : List Byte} {s : State} (h : s.ready = true) :
    updateBytes bytes s = s.setReg (foldBytes s.table s.reg bytes) := by
  simp [updateBytes, h]

theorem updateBytes_notReady {bytes : List Byte} {s : State} (h : s.ready = false) :
    updateBytes bytes s = s.setErrNotReady true := by
  simp [updateBytes, h]

/-- Everything a command can do: it completes, and changes REG, or an error bit, and nothing else. -/
theorem exec_cases {i : Instr} {s : State} {o : Host.Outcome State Fault Refusal} (h : exec i s = o) :
    (∃ v, (i = .init ∨ needsTable i = true ∧ s.ready = true) ∧ o = .next (s.setReg v)) ∨
      (i = .clrerr ∧ o = .next s.clearErrors) ∨
      (needsTable i = true ∧ s.ready = false ∧ o = .next (s.setErrNotReady true)) ∨
      ((i = .nop ∨ i = .upd0) ∧ o = .next s) := by
  subst h
  have upd : ∀ {j : Instr} {bytes}, needsTable j = true → exec j s = .next (updateBytes bytes s) →
      (∃ v, (j = .init ∨ needsTable j = true ∧ s.ready = true) ∧ exec j s = .next (s.setReg v)) ∨
        (j = .clrerr ∧ exec j s = .next s.clearErrors) ∨
        (needsTable j = true ∧ s.ready = false ∧ exec j s = .next (s.setErrNotReady true)) ∨
        ((j = .nop ∨ j = .upd0) ∧ exec j s = .next s) := by
    intro j bytes hn he
    cases hr : s.ready with
    | true => exact .inl ⟨_, .inr ⟨hn, rfl⟩, by rw [he, updateBytes_ready hr]⟩
    | false => exact .inr (.inr (.inl ⟨hn, rfl, by rw [he, updateBytes_notReady hr]⟩))
  cases i with
  | nop => exact .inr (.inr (.inr ⟨.inl rfl, rfl⟩))
  | init => exact .inl ⟨_, .inl rfl, rfl⟩
  | clrerr => exact .inr (.inl ⟨rfl, rfl⟩)
  | upd0 => exact .inr (.inr (.inr ⟨.inr rfl, rfl⟩))
  | upd1 b0 => exact upd rfl rfl
  | upd2 b0 b1 => exact upd rfl rfl
  | upd3 b0 b1 b2 => exact upd rfl rfl

/-! The host port. -/

@[simp] theorem regAt_regOffset (r : Reg) : regAt (regOffset r) = some r := by cases r <;> decide

@[simp] theorem accessLegal_cmdWrite (w : Word) : accessLegal (cmdWrite w) = true := by
  simp [accessLegal, cmdWrite, regOffset]

/-- A legal access is 4 bytes wide at a multiple of 4. -/
theorem accessLegal_iff (a : Access) : accessLegal a = true ↔ a.size = .four ∧ a.off.toNat % 4 = 0 := by
  simp [accessLegal]

theorem regOffset_aligned (r : Reg) : (regOffset r).toNat % 4 = 0 := by cases r <;> decide

theorem regAt_eq_some {off : Offset} {r : Reg} (h : regAt off = some r) : off = regOffset r := by
  unfold regAt at h
  repeat' split at h
  all_goals first | (cases h; assumption) | cases h

/-- A write of a command word at the port. -/
theorem hostAccess_cmdWrite (w : Word) (s : State) :
    hostAccess (cmdWrite w) s = execCmd w (s.respond writeResponse) := by
  unfold hostAccess
  rw [if_pos (accessLegal_cmdWrite w)]
  simp [regWrite, cmdWrite]

/-- A legal read of a register. -/
theorem hostAccess_readReg (r : Reg) (d : Word) (s : State) :
    hostAccess ⟨.read, regOffset r, .four, d⟩ s = .next (s.respond (readResponse (readReg s r))) := by
  unfold hostAccess
  rw [(accessLegal_iff _).2 ⟨rfl, regOffset_aligned r⟩]
  simp [regRead]

/-- A legal write of a register. -/
theorem hostAccess_writeReg (r : Reg) (v : Word) (s : State) :
    hostAccess ⟨.write, regOffset r, .four, v⟩ s = regWrite (regOffset r) v (s.respond writeResponse) := by
  unfold hostAccess
  rw [(accessLegal_iff _).2 ⟨rfl, regOffset_aligned r⟩]
  rfl

/-- Everything a host access can do. -/
theorem hostAccess_cases (a : Access) (s : State) :
    (accessLegal a = false ∧ hostAccess a s = .next (s.respond busErrorResponse)) ∨
      (accessLegal a = true ∧ a.dir = .read ∧
        hostAccess a s = .next (s.respond (readResponse (regRead s a.off)))) ∨
      (a = cmdWrite a.wdata ∧ hostAccess a s = execCmd a.wdata (s.respond writeResponse)) ∨
      (accessLegal a = true ∧ a.dir = .write ∧ a.off = regOffset .seed ∧
        hostAccess a s = .next ((s.respond writeResponse).setSeed a.wdata)) ∨
      (accessLegal a = true ∧ a.dir = .write ∧ a.off = regOffset .tblIndex ∧
        hostAccess a s = .next ((s.respond writeResponse).setTblIndex (lowByte a.wdata))) ∨
      (accessLegal a = true ∧ a.dir = .write ∧ hostAccess a s = .next (s.respond writeResponse)) := by
  obtain ⟨dir, off, size, wdata⟩ := a
  cases hl : accessLegal ⟨dir, off, size, wdata⟩ with
  | false => exact .inl ⟨rfl, by simp [hostAccess, hl]⟩
  | true =>
    cases dir with
    | read => exact .inr (.inl ⟨rfl, rfl, by simp [hostAccess, hl]⟩)
    | write =>
      have hs : size = .four := ((accessLegal_iff _).1 hl).1
      cases hr : regAt off with
      | none => exact .inr (.inr (.inr (.inr (.inr ⟨rfl, rfl, by simp [hostAccess, hl, regWrite, hr]⟩))))
      | some r =>
        have ho : off = regOffset r := regAt_eq_some hr
        subst ho
        subst hs
        cases r with
        | cmd => exact .inr (.inr (.inl ⟨rfl, hostAccess_cmdWrite wdata s⟩))
        | seed => exact .inr (.inr (.inr (.inl ⟨rfl, rfl, rfl, by simp [hostAccess, hl, regWrite]⟩)))
        | tblIndex =>
          exact .inr (.inr (.inr (.inr (.inl ⟨rfl, rfl, rfl, by simp [hostAccess, hl, regWrite]⟩))))
        | poly | status | state | digest | tblData =>
          exact .inr (.inr (.inr (.inr (.inr ⟨rfl, rfl, by simp [hostAccess, hl, regWrite]⟩))))

/-! The step. -/

theorem step_nil {s : State} (h : s.events = []) : step s = .next (builderTurn allEntries s) := by
  simp only [step, h, idle, finishBuild_eq_builderStep, builderTurn]

theorem step_access {s : State} {a : Access} {rest : List Event} (h : s.events = .access a :: rest)
    (hr : s.rstN = true) : step s = hostAccess a (s.setEvents rest) := by
  simp [step, h, perform, hr]

theorem step_access_held {s : State} {a : Access} {rest : List Event} (h : s.events = .access a :: rest)
    (hr : s.rstN = false) : step s = .refused .accessDuringReset := by
  simp [step, h, perform, hr]

theorem step_build {s : State} {picks : List Byte} {rest : List Event} (h : s.events = .build picks :: rest) :
    step s = .next (builderTurn picks (s.setEvents rest)) := by
  simp [step, h, perform]

theorem step_assertReset {s : State} {rest : List Event} (h : s.events = .assertReset :: rest) :
    step s = .next (s.setEvents rest).assertReset := by
  simp [step, h, perform]

theorem step_releaseReset {s : State} {rest : List Event} (h : s.events = .releaseReset :: rest) :
    step s = .next (s.setEvents rest).releaseReset := by
  simp [step, h, perform]

/-- A run whose first step is known. -/
theorem run_succ {n : Nat} {s t : State} (h : step s = .next t) : run (n + 1) s = run n t := by
  rw [run, h]

/-- `run` is the host's own run of the machine. -/
theorem run_eq_core_run (n : Nat) (s : State) : run n s = Sys2Proof.core.run n s := by
  induction n generalizing s with
  | zero => rfl
  | succ n ih =>
    have h : Sys2Proof.core.step s = step s := rfl
    simp only [run, Host.Core.run, h]
    cases step s with
    | next t => exact ih t
    | fault r => rfl
    | refused r => rfl

end Sys2Proof.Machine
end

