-- ==== Sys2Proof/Laws/Fairness.lean ====
section
/-! SUPPORT. What a turn of the system of host and CORE can do, said once, and runs that are fair because the builder has
finished. -/

namespace Sys2Proof.Machine

/-- Every host access completes (70_reset_and_hazards.md R193), and of the state it leaves rst_n, READY, TABLE and BUILD as
they are. -/
theorem hostAccess_completes (a : Access) (s : State) :
    ∃ t, hostAccess a s = .next t ∧ t.rstN = s.rstN ∧ t.ready = s.ready ∧ t.table = s.table ∧ t.build = s.build := by
  have hexec : ∀ (i : Instr) (u : State),
      ∃ t, exec i u = .next t ∧ t.rstN = u.rstN ∧ t.ready = u.ready ∧ t.table = u.table ∧ t.build = u.build := by
    intro i u
    rcases exec_cases (rfl : exec i u = exec i u) with ⟨v, _, h⟩ | ⟨_, h⟩ | ⟨_, _, h⟩ | ⟨_, h⟩ <;>
      exact ⟨_, h, rfl, rfl, rfl, rfl⟩
  have hcmd : ∀ (w : Word) (u : State),
      ∃ t, execCmd w u = .next t ∧ t.rstN = u.rstN ∧ t.ready = u.ready ∧ t.table = u.table ∧ t.build = u.build := by
    intro w u
    unfold execCmd
    split
    · exact hexec _ u
    · exact ⟨_, rfl, rfl, rfl, rfl, rfl⟩
  rcases hostAccess_cases a s with ⟨_, h⟩ | ⟨_, _, h⟩ | ⟨_, h⟩ | ⟨_, _, _, h⟩ | ⟨_, _, _, h⟩ | ⟨_, _, h⟩
  · exact ⟨_, h, rfl, rfl, rfl, rfl⟩
  · exact ⟨_, h, rfl, rfl, rfl, rfl⟩
  · rw [h]
    exact hcmd a.wdata (s.respond writeResponse)
  · exact ⟨_, h, rfl, rfl, rfl, rfl⟩
  · exact ⟨_, h, rfl, rfl, rfl, rfl⟩
  · exact ⟨_, h, rfl, rfl, rfl, rfl⟩

/-- A `wr` or `rd` line whose access completes completes, and leaves the host beside the state the access leaves. -/
theorem complete_next (m : HostState) (keepH : Bool) (s : State) :
    ∃ m', m.complete keepH (.next s) = .next m' ∧ m'.core = s := by
  refine ⟨_, rfl, ?_⟩
  have h : (m.receive s).core = s := by
    unfold HostState.receive
    split <;> rfl
  cases keepH <;> exact h

/-- Every branch of the sequence goes to a label that stands in it. -/
def labelsResolve (prog : List HostLine) : Prop :=
  ∀ (l : Nat) (mask val : Word), HostLine.bneM l mask val ∈ prog → ∃ k, findLabel l prog = some k

/-- With rst_n released, the host's turn completes; to CORE it does nothing, or one host access. -/
theorem hostStep_host {prog : List HostLine} (hp : labelsResolve prog) (m : HostState) (hr : m.core.rstN = true) :
    ∃ m', hostStep prog .host m = .next m' ∧
      (m'.core = m.core ∨ ∃ a, hostAccess a m.core = .next m'.core) := by
  have access : ∀ (a : Access) (keepH : Bool), ∃ m', m.complete keepH (portAccess a m.core) = .next m' ∧
      (m'.core = m.core ∨ ∃ a, hostAccess a m.core = .next m'.core) := by
    intro a keepH
    obtain ⟨t, ht, -⟩ := hostAccess_completes a m.core
    have hpa : portAccess a m.core = .next t := by simp [portAccess, perform, hr, ht]
    obtain ⟨m', hm, hc⟩ := complete_next m keepH t
    exact ⟨m', by rw [hpa, hm], .inr ⟨a, by rw [hc, ht]⟩⟩
  simp only [hostStep]
  split
  · exact ⟨_, rfl, .inl rfl⟩
  · split
    · exact ⟨_, rfl, .inl rfl⟩
    · exact ⟨_, rfl, .inl rfl⟩
    · exact ⟨_, rfl, .inl rfl⟩
    · next l mask val hl =>
      split
      · exact ⟨_, rfl, .inl rfl⟩
      · obtain ⟨k, hk⟩ := hp l mask val (List.mem_of_getElem? hl)
        simp only [hk]
        exact ⟨_, rfl, .inl rfl⟩
    · exact access _ _
    · exact access _ _

/-- A builder turn changes READY, TABLE and BUILD at most, and never clears READY. -/
theorem builderTurn_frame (picks : List Byte) (s : State) :
    ∃ t, builderTurn picks s = t ∧ t = { s with ready := t.ready, table := t.table, build := t.build } ∧
      (s.ready = true → t.ready = true) := by
  by_cases hr : s.rstN = true
  · by_cases hd : s.ready = true
    · exact ⟨s, by rw [builderTurn_released hr, builderStep_ready hd], rfl, id⟩
    · obtain ⟨t, ht, e, -⟩ := builderStep_notReady (picks := picks) (s := s) (by simpa using hd)
      exact ⟨t, by rw [builderTurn_released hr, ht], e, fun h => absurd h hd⟩
  · exact ⟨s, builderTurn_held (by simpa using hr), rfl, id⟩

/-- A builder turn that picks every index finishes the build. -/
theorem builderTurn_allEntries_ready {s : State} (hr : s.rstN = true) : (builderTurn allEntries s).ready = true := by
  rw [builderTurn_released hr, ← finishBuild_eq_builderStep, finishBuild]
  split
  · assumption
  · rfl

/-- With rst_n released, every turn of the system completes, keeps rst_n released, and never clears READY. -/
theorem hostStep_next {prog : List HostLine} (hp : labelsResolve prog) (t : HostTurn) (m : HostState)
    (hr : m.core.rstN = true) :
    ∃ m', hostStep prog t m = .next m' ∧ m'.core.rstN = true ∧ (m.core.ready = true → m'.core.ready = true) := by
  cases t with
  | builder picks =>
    obtain ⟨u, hu, e, hd⟩ := builderTurn_frame picks m.core
    exact ⟨_, rfl, by rw [hu, e]; exact hr, by rw [hu]; exact hd⟩
  | host =>
    obtain ⟨m', hm, hc | ⟨a, ha⟩⟩ := hostStep_host hp m hr
    · exact ⟨m', hm, by rw [hc]; exact hr, by rw [hc]; exact id⟩
    · obtain ⟨u, hu, h1, h2, -⟩ := hostAccess_completes a m.core
      rw [hu] at ha
      injection ha with ha
      exact ⟨m', hm, by rw [← ha, h1]; exact hr, by rw [← ha, h2]; exact id⟩

/-- A run in which READY is 1 from some time on is fair to the builder. -/
theorem fairToBuilder_of_ready {core : Nat → State} {moves : Nat → Bool} {k : Nat}
    (h : ∀ n, k ≤ n → (core n).ready = true) : FairToBuilder core moves := fun n =>
  ⟨max n k, le_max_left n k, .inl (by simp [State.builderEnabled, h _ (le_max_right n k)])⟩

end Sys2Proof.Machine
end

