-- ==== Sys2Proof/Laws/PerInstr.lean ====
section
/-! SUPPORT. The family of per-instruction statements (LAWS.json): a command's word belongs to the row the opcode table gives
that command (30_encoding.md R84). -/

namespace Sys2Proof.Laws.MatchesRow

/-- `(word & mask) = match` for the command's own row, whose seven rows are those of the opcode table. -/
def Statement (i : Instr) : Prop := opcodeRow i ∈ opcodeTable ∧ (opcodeRow i).selects (encode i)

/-- The masked bits of a packed word, one byte at a time. -/
theorem packWord_and (op b2 b1 b0 m3 m2 m1 m0 : Byte) :
    packWord op b2 b1 b0 &&& packWord m3 m2 m1 m0 =
      packWord (op &&& m3) (b2 &&& m2) (b1 &&& m1) (b0 &&& m0) := by
  change (op ++ b2 ++ b1 ++ b0 : BitVec (8 + 8 + 8 + 8)) &&& (m3 ++ m2 ++ m1 ++ m0) = _
  rw [BitVec.and_append, BitVec.and_append, BitVec.and_append]
  rfl

theorem nop : Statement .nop := ⟨by decide, by decide⟩

theorem init : Statement .init := ⟨by decide, by decide⟩

theorem clrerr : Statement .clrerr := ⟨by decide, by decide⟩

theorem upd0 : Statement .upd0 := ⟨by decide, by decide⟩

theorem upd1 (b0 : Byte) : Statement (.upd1 b0) := by
  refine ⟨by simp [opcodeRow, opcodeTable], ?_⟩
  have h : (0xFFFFFF00#32 : Word) = packWord 0xFF#8 0xFF#8 0xFF#8 0x00#8 := by decide
  simp only [OpcodeRow.selects, opcodeRow, encode, h, packWord_and]
  simp [packWord]

theorem upd2 (b0 b1 : Byte) : Statement (.upd2 b0 b1) := by
  refine ⟨?_, ?_⟩
  · simp [opcodeRow, opcodeTable]
  · have h : (0xFFFF0000#32 : Word) = packWord 0xFF#8 0xFF#8 0x00#8 0x00#8 := by decide
    simp only [OpcodeRow.selects, opcodeRow, encode, h, packWord_and]
    simp [packWord]

theorem upd3 (b0 b1 b2 : Byte) : Statement (.upd3 b0 b1 b2) := by
  refine ⟨?_, ?_⟩
  · simp [opcodeRow, opcodeTable]
  · have h : (0xFF000000#32 : Word) = packWord 0xFF#8 0x00#8 0x00#8 0x00#8 := by decide
    simp only [OpcodeRow.selects, opcodeRow, encode, h, packWord_and]
    simp [packWord]

end Sys2Proof.Laws.MatchesRow
end

