-- ==== Sys2Proof/Tests/Slice0.lean ====
section
/-! SUPPORT. Tests: the well-formedness smoke test, decodings of words written out from the spec's encodings, single steps
with the results of 95_test_vectors.md, and for every obligation with hypotheses a witness that meets them. -/

namespace Sys2Proof.Tests

open Sys2Proof.Machine

/-! ## Helpers -/

/-- The next state of an outcome, if it is one. -/
def nextState {σ : Type} : Host.Outcome σ Fault Refusal → Option σ
  | .next s => some s
  | .fault _ => none
  | .refused _ => none

/-- The state with the table built, as the builder leaves it. -/
def readyState : State :=
  { State.reset with ready := true, table := fullTable, build := Vector.replicate 256 true }

/-- REG after a command, from the ready state with this REG and SEED. -/
def regAfter (i : Instr) (reg seed : Word) : Option Word :=
  (nextState (exec i { readyState with reg := reg, seed := seed })).map (·.reg)

/-- STATUS after a command, from the reset state (READY = 0). -/
def statusAtReset (i : Instr) : Option Word := (nextState (exec i State.reset)).map statusWord

/-- What a step of this state with this one access returns. -/
def responseOf (s : State) (a : Access) : Option Response :=
  (nextState (step (s.setEvents [.access a]))).bind (·.lastResponse)

/-- STATUS after a step of this state with this one access. -/
def statusAfter (s : State) (a : Access) : Option Word :=
  (nextState (step (s.setEvents [.access a]))).map statusWord

theorem readyState_inv : readyState.Inv := by
  refine ⟨fun i _ => entryAt_fullTable i, ⟨fun _ i => entryAt_replicate true i, fun _ => rfl⟩, ?_⟩
  intro h
  cases h

/-! ## Well-formedness: the one check, and a term it refuses (30_encoding.md R87) -/

theorem test_operand_0x100_refused : operandWellFormed 0x100 = false := by decide

theorem test_operand_0xFF_accepted : operandWellFormed 0xFF = true := by decide

theorem test_assembler_refuses_0x100 : assemble (.upd2 0x31 0x100) = none := by decide

/-! ## Decoding: words written out from R81 and R82, OP [31:24], B2 [23:16], B1 [15:8], B0 [7:0] -/

theorem test_decode_nop : decode 0b00000000000000000000000000000000#32 = .command .nop := by decide

theorem test_decode_init : decode 0b00000001000000000000000000000000#32 = .command .init := by decide

theorem test_decode_clrerr : decode 0b00000010000000000000000000000000#32 = .command .clrerr := by decide

theorem test_decode_upd0 : decode 0b00010000000000000000000000000000#32 = .command .upd0 := by decide

theorem test_decode_upd1 : decode 0b00010001000000000000000000110001#32 = .command (.upd1 0x31#8) := by decide

theorem test_decode_upd2 : decode 0b00010010000000000011001000110001#32 = .command (.upd2 0x31#8 0x32#8) := by
  decide

theorem test_decode_upd3 :
    decode 0b00010011001100110011001000110001#32 = .command (.upd3 0x31#8 0x32#8 0x33#8) := by decide

/-- The ILLEGAL column of 95_test_vectors.md 3.2: each opcode with a reserved bit, and unassigned opcodes. -/
theorem test_decode_illegal :
    [0x00000001#32, 0x01800000#32, 0x02000010#32, 0x100000FF#32, 0x11000100#32, 0x11FF0000#32, 0x12013231#32].map decode =
        List.replicate 7 (.illegal .reservedLane) ∧
      [0x03000000#32, 0x14000000#32, 0x20000000#32, 0xFFFFFFFF#32].map decode =
        List.replicate 4 (.illegal .unassignedOpcode) := by decide

/-- R87's words. -/
theorem test_encode_words :
    encode .clrerr = 0x02000000#32 ∧ encode (.upd2 0x38#8 0x39#8) = 0x12003938#32 ∧
      encode (.upd3 0x31#8 0x32#8 0x33#8) = 0x13333231#32 := by decide

theorem test_decodeTableWord : decodeTableWord 32 0x13333231 = some (.upd3 0x31#8 0x32#8 0x33#8) := by decide

/-! ## The table (95_test_vectors.md 2 and 3.1) -/

theorem test_bitStep :
    bitStep 0x00000003#32 = 0x82F63B79#32 ∧ bitStep 0x80000000#32 = 0x40000000#32 ∧
      bitStep 0xFFFFFFFF#32 = 0xFD09C487#32 ∧ bitStep 0x82F63B78#32 = 0x417B1DBC#32 := by decide

theorem test_tableEntry :
    tableEntry 0x0F#8 = 0x5E133C24#32 ∧ tableEntry 0x55#8 = 0x64D4CECF#32 ∧
      tableEntry 0xAA#8 = 0xC9A99D9E#32 ∧ tableEntry 0xFE#8 = 0x5F16D052#32 := by decide

/-- The idle machine after reset: the builder finishes and STATUS reads 1 (3.6). -/
theorem test_builder_after_reset :
    (nextState (step State.reset)).map (fun s => (statusWord s, entryAt s.table 0xFF#8, s.reg)) =
      some (0x00000001#32, 0xAD7D5351#32, 0xFFFFFFFF#32) := by decide +kernel

/-- A builder step that writes one entry does not set READY. -/
theorem test_builder_one_entry :
    (nextState (step (State.reset.setEvents [.build [0x80#8]]))).map
        (fun s => (s.ready, entryAt s.table 0x80#8, entryAt s.build 0x80#8, entryAt s.build 0x81#8)) =
      some (false, 0x82F63B78#32, true, false) := by decide +kernel

/-! ## The commands (95_test_vectors.md 3.3) -/

theorem test_nop : regAfter .nop 0x1CF96D7C#32 0#32 = some 0x1CF96D7C#32 := by decide +kernel

theorem test_init : regAfter .init 0x1CF96D7C#32 0x12345678#32 = some 0xEDCBA987#32 := by decide +kernel

theorem test_init_not_ready : statusAtReset .init = some 0x00000000#32 := by decide +kernel

theorem test_clrerr :
    statusAfter ((readyState.setErrIllegal true).setErrNotReady true) (cmdWrite 0x02000000#32) =
      some 0x00000001#32 := by decide +kernel

theorem test_clrerr_reserved_bit :
    statusAfter ((readyState.setErrIllegal true).setErrNotReady true) (cmdWrite 0x02000001#32) =
      some 0x00000007#32 := by decide +kernel

theorem test_upd0 : regAfter .upd0 0xFFFFFFFF#32 0#32 = some 0xFFFFFFFF#32 := by decide +kernel

theorem test_upd0_not_ready : statusAtReset .upd0 = some 0x00000000#32 := by decide +kernel

theorem test_upd1 : regAfter (.upd1 0xA5#8) 0xDEADBEEF#32 0#32 = some 0x2A47983A#32 := by decide +kernel

theorem test_upd1_not_ready : statusAtReset (.upd1 0x31#8) = some 0x00000004#32 := by decide +kernel

theorem test_upd2 : regAfter (.upd2 0x32#8 0x31#8) 0xFFFFFFFF#32 0#32 = some 0xAB1D60F2#32 := by decide +kernel

theorem test_upd2_zeros : regAfter (.upd2 0x00#8 0x00#8) 0xFFFFFFFF#32 0#32 = some 0x0E9E882D#32 := by
  decide +kernel

theorem test_upd3 : regAfter (.upd3 0x78#8 0x56#8 0x34#8) 0x12345678#32 0#32 = some 0x00000012#32 := by
  decide +kernel

theorem test_upd3_not_ready : statusAtReset (.upd3 0x31#8 0x32#8 0x33#8) = some 0x00000004#32 := by decide +kernel

/-- Source vectors S4 and S10 (95_test_vectors.md 1), over the reference function. -/
theorem test_crc32c_check_values :
    crc32c [0x31#8, 0x32#8, 0x33#8, 0x34#8, 0x35#8, 0x36#8, 0x37#8, 0x38#8, 0x39#8] 0#32 = 0xE3069283#32 ∧
      crc32c [0x61#8, 0x62#8, 0x63#8, 0x64#8, 0x65#8, 0x66#8] 0x12345678#32 = 0x2AFC5BE1#32 := by decide +kernel

/-! ## The register window (95_test_vectors.md 3.4 and 3.5) -/

theorem test_read_digest :
    responseOf (readyState.setReg 0xEF84D04D#32) ⟨.read, 0x14#6, .four, 0#32⟩ =
      some ⟨.okay, some 0x107B2FB2#32⟩ := by decide +kernel

theorem test_read_tbl_data :
    responseOf (readyState.setTblIndex 0x80#8) ⟨.read, 0x1C#6, .four, 0#32⟩ =
      some ⟨.okay, some 0x82F63B78#32⟩ := by decide +kernel

theorem test_read_reserved :
    responseOf readyState ⟨.read, 0x20#6, .four, 0#32⟩ = some ⟨.okay, some 0#32⟩ := by decide +kernel

theorem test_narrow_read_errs :
    responseOf readyState ⟨.read, 0x14#6, .one, 0#32⟩ = some ⟨.error, some 0#32⟩ := by decide +kernel

theorem test_misaligned_read_errs :
    responseOf readyState ⟨.read, 0x16#6, .four, 0#32⟩ = some ⟨.error, some 0#32⟩ := by decide +kernel

theorem test_write_tbl_index_truncates :
    (nextState (step (readyState.setEvents [.access ⟨.write, 0x18#6, .four, 0xFFFFFF80#32⟩]))).map (·.tblIndex) =
      some 0x80#8 := by decide +kernel

theorem test_write_reserved_is_no_command :
    (nextState (step (readyState.setEvents [.access ⟨.write, 0x3C#6, .four, 0x13333231#32⟩]))).map (·.reg) =
      some 0xFFFFFFFF#32 := by decide +kernel

theorem test_illegal_sets_status : statusAfter readyState (cmdWrite 0x14000000#32) = some 0x00000003#32 := by
  decide +kernel

/-- Illegal at READY = 0: ILLEGAL wins, NOTREADY is not set. -/
theorem test_illegal_before_not_ready : statusAfter State.reset (cmdWrite 0x11000131#32) = some 0x00000002#32 := by
  decide +kernel

/-- A narrow write to CMD: the bus error wins, nothing is decoded. -/
theorem test_bus_error_before_illegal :
    statusAfter State.reset ⟨.write, 0x08#6, .two, 0x14000000#32⟩ = some 0x00000000#32 := by decide +kernel

/-- An earlier error does not block: UPD3 from STATUS = 5. -/
theorem test_error_does_not_block :
    (nextState (step ((readyState.setErrNotReady true).setEvents [.access (cmdWrite 0x13333231#32)]))).map
        (fun s => (s.reg, statusWord s)) = some (0xEF84D04D#32, 0x00000005#32) := by decide +kernel

/-- The word placed by `withFetchWord` is what the next step runs: INIT with a seed, right after reset. -/
theorem test_withFetchWord_runs_init :
    (nextState (step ((State.reset.setSeed 0x12345678#32).withFetchWord 32 0x01000000))).map (·.reg) =
      some 0xEDCBA987#32 := by decide +kernel

/-! ## The host's notation (30_encoding.md R88, R89) -/

/-- `bne_m` goes back to its label while READY = 0. -/
theorem test_host_poll_loops :
    (nextState (hostStep (waitReadyLines 7) .host ⟨2, 0#32, .okay, false, State.reset⟩)).map (·.line) = some 0 := by
  decide +kernel

/-- `upd` of five bytes is one UPD3 and one UPD2. -/
theorem test_upd_expansion :
    updCommands [1#8, 2#8, 3#8, 4#8, 5#8] = [.upd3 1#8 2#8 3#8, .upd2 4#8 5#8] := by decide

/-! ## Witnesses: for every obligation with hypotheses, operands that meet them -/

/-- A state of any READY and rst_n with these events. -/
def stateWith (ready rstN : Bool) (es : List Event) : State :=
  ((if ready then readyState else State.reset).setRstN rstN).setEvents es

/-- AssertedResetRestoresAndHolds, its four clauses. -/
theorem witness_asserted_reset :
    (∃ (s : State) (rest : List Event), s.events = .assertReset :: rest) ∧
      (∃ (s : State) (picks : List Byte) (rest : List Event),
        s.rstN = false ∧ s.events = .build picks :: rest) ∧
      (∃ s : State, s.rstN = false ∧ s.events = []) ∧
      (∃ (s : State) (rest : List Event), s.events = .releaseReset :: rest) :=
  ⟨⟨stateWith true true [.assertReset], [], rfl⟩, ⟨stateWith false false [.build [0#8]], [0#8], [], rfl, rfl⟩,
    ⟨stateWith false false [], rfl, rfl⟩, ⟨stateWith false false [.releaseReset], [], rfl⟩⟩

/-- NoHostStepDuringReset. -/
theorem witness_no_host_step_during_reset :
    ∃ (s : State) (a : Access) (rest : List Event), s.rstN = false ∧ s.events = .access a :: rest :=
  ⟨stateWith false false [.access (cmdWrite 0#32)], _, [], rfl, rfl⟩

/-- EveryStepKeepsInvariant: a state that meets the invariant and steps. -/
theorem witness_step_from_invariant : ∃ s t : State, s.Inv ∧ step s = .next t :=
  ⟨readyState, _, readyState_inv, step_nil rfl⟩

/-- ReadyTableIsT, StepLooksUpAndShifts, TableReadPort. -/
theorem witness_ready_invariant : ∃ s : State, s.Inv ∧ s.ready = true := ⟨readyState, readyState_inv, rfl⟩

/-- TableReadPort's first and last clauses. -/
theorem witness_table_read_port :
    (∃ s : State, s.ready = false) ∧
      ∃ (s : State) (rest : List Event), s.Inv ∧ s.ready = true ∧ s.rstN = true ∧
        s.events = lineEvents (tblLines 0x80#32) ++ rest := by
  refine ⟨⟨State.reset, rfl⟩, readyState.setEvents (lineEvents (tblLines 0x80#32)), [], ?_, rfl, rfl, by simp⟩
  exact ⟨readyState_inv.1, readyState_inv.2.1, fun h => (nomatch h)⟩

/-- ZeroWordIsNop. -/
theorem witness_zero_word :
    ∃ (s : State) (rest : List Event), s.rstN = true ∧ s.events = .access (cmdWrite 0x00000000#32) :: rest :=
  ⟨stateWith false true [.access (cmdWrite 0#32)], [], rfl, rfl⟩

/-- DecodeInvertsEncode, EncodeInvertsDecode: a command of each shape, operands at both ends. -/
theorem witness_round_trips :
    (Instr.upd3 0x00#8 0x7F#8 0xFF#8).wellFormed = true ∧
      decode 0x13FF7F00#32 = .command (.upd3 0x00#8 0x7F#8 0xFF#8) := by decide

/-- DecodeIsTheOpcodeMap: a word for each case of the opcode, an unassigned one among them, and a word of a row. -/
theorem witness_opcode_cases :
    [0x00000000#32, 0x01FFFFFF#32, 0x02000000#32, 0x10000001#32, 0x11000100#32, 0x12010000#32, 0x13FFFFFF#32].map
        (fun w : Word => w.extractLsb' 24 8) = [0x00#8, 0x01#8, 0x02#8, 0x10#8, 0x11#8, 0x12#8, 0x13#8] ∧
      (0x14000000#32 : Word).extractLsb' 24 8 ∉ [0x00#8, 0x01#8, 0x02#8, 0x10#8, 0x11#8, 0x12#8, 0x13#8] ∧
      (0x120000FF#32 : Word) &&& (opcodeRow (.upd2 0#8 0#8)).maskBits = (opcodeRow (.upd2 0#8 0#8)).matchBits ∧
      opcodeRow (.upd2 0#8 0#8) ∈ opcodeTable := by decide

/-- IllegalWordsAndTheirEffect, IllegalCommandSetsOnlyItsBit, ErrorPriority: an ILLEGAL word at the port. -/
theorem witness_illegal_word :
    ∃ (s : State) (w : Word) (why : IllegalReason) (rest : List Event),
      s.rstN = true ∧ s.events = .access (cmdWrite w) :: rest ∧ decode w = .illegal why :=
  ⟨stateWith false true [.access (cmdWrite 0x11000131#32)], _, .reservedLane, [], rfl, rfl, by decide⟩

/-- IllegalCommandSetsOnlyItsBit's second clause: a step that sets the bit. -/
theorem witness_illegal_bit_rises : ∃ s t : State, step s = .next t ∧ s.errIllegal = false ∧ t.errIllegal = true := by
  refine ⟨stateWith false true [.access (cmdWrite 0x14000000#32)],
    ((stateWith false true []).respond writeResponse).setErrIllegal true, ?_, rfl, rfl⟩
  · rw [step_access (rest := []) rfl rfl, hostAccess_cmdWrite, execCmd,
      show decode 0x14000000#32 = .illegal .unassignedOpcode by decide]
    rfl

/-- TableEntryIsEightBitSteps: an odd and an even word. -/
theorem witness_bit_step_cases : (0x00000001#32).toNat % 2 = 1 ∧ (0x80000000#32).toNat % 2 = 0 := by decide

/-- BuilderStepWritesPickedEntries, both clauses. -/
theorem witness_builder_step :
    (∃ (s : State) (picks : List Byte) (rest : List Event),
        s.rstN = true ∧ s.ready = false ∧ s.events = .build picks :: rest) ∧
      ∃ (s : State) (picks : List Byte) (rest : List Event), s.ready = true ∧ s.events = .build picks :: rest :=
  ⟨⟨stateWith false true [.build [0x00#8, 0xFF#8]], _, [], rfl, rfl, rfl⟩,
    ⟨stateWith true true [.build [0x00#8]], _, [], rfl, rfl⟩⟩

/-- IdleBuilderCompletesTheTable. Its invariant is met by any state with nothing written. -/
theorem witness_idle_builder :
    ∃ s : State, s.Inv ∧ s.rstN = true ∧ s.ready = false ∧ s.events = [] := by
  refine ⟨State.reset.setSeed 5#32, ⟨?_, ⟨fun h => (nomatch h), fun h => ?_⟩, fun h => (nomatch h)⟩, rfl, rfl, rfl⟩
  · intro i h
    simp [State.reset, entryAt_replicate] at h
  · have := h 0#8
    simp [State.reset, entryAt_replicate] at this

/-- BuilderFinishesInEveryRun, at READY = 0: a refused update and a builder step that leaves entries to write. -/
theorem witness_events_before_ready :
    ∃ s : State, s.ready = false ∧ s.rstN = true ∧ s.events.length = 2 ∧ ∀ e ∈ s.events, e.noReset := by
  refine ⟨stateWith false true [.access (cmdWrite 0x11000031#32), .build [0x80#8]], rfl, rfl, rfl, ?_⟩
  simp [stateWith, Event.noReset]

/-- BuilderFinishesInEveryRun at READY = 1, RegisterFoldsTheBytesPresented: an update, a DIGEST read, a builder turn and
another update, no reset and no INIT, presenting four bytes in all. -/
theorem witness_events_without_reset :
    ∃ s : State, s.ready = true ∧ s.rstN = true ∧
      s.events.flatMap eventBytes = [0x31#8, 0x32#8, 0x33#8, 0xFF#8] ∧
      ∀ e ∈ s.events, e.noReset ∧ ¬e.issues .init := by
  refine ⟨stateWith true true [.access (cmdWrite 0x13333231#32), .access ⟨.read, 0x14#6, .four, 0#32⟩, .build [],
    .access (cmdWrite 0x110000FF#32)], rfl, rfl, by decide, ?_⟩
  have update : ∀ (v : Word) (i : Instr), decode v = .command i → i ≠ .init →
      ¬(Event.access (cmdWrite v)).issues .init := by
    rintro v i hv hi ⟨w, hw, hd⟩
    simp only [cmdWrite, Event.access.injEq, Access.mk.injEq, true_and] at hw
    rw [← hw, hv] at hd
    exact hi (Decoded.command.inj hd)
  intro e he
  simp only [stateWith, State.setEvents_events, List.mem_cons, List.not_mem_nil, or_false] at he
  rcases he with rfl | rfl | rfl | rfl
  · exact ⟨trivial, update _ (.upd3 0x31#8 0x32#8 0x33#8) (by decide) (by decide)⟩
  · refine ⟨trivial, ?_⟩
    rintro ⟨w, hw, -⟩
    simp [cmdWrite] at hw
  · refine ⟨trivial, ?_⟩
    rintro ⟨w, hw, -⟩
    cases hw
  · exact ⟨trivial, update _ (.upd1 0xFF#8) (by decide) (by decide)⟩

/-- ReadyTableIsImmutable: a ready state whose next event is no reset; an access; a step that clears READY. -/
theorem witness_immutable :
    (∃ s t : State, s.ready = true ∧ s.events.head? ≠ some .assertReset ∧ step s = .next t) ∧
      (∃ (s t : State) (a : Access) (rest : List Event), s.events = .access a :: rest ∧ step s = .next t) ∧
      ∃ s t : State, step s = .next t ∧ s.ready = true ∧ t.ready = false := by
  exact ⟨⟨readyState, _, rfl, by decide, step_nil rfl⟩,
    ⟨stateWith true true [.access ⟨.read, regOffset .digest, .four, 0#32⟩], _, _, [], rfl,
      (step_access rfl rfl).trans (hostAccess_readReg .digest 0#32 _)⟩,
    ⟨stateWith true true [.assertReset], _, step_assertReset (rest := []) rfl, rfl, rfl⟩⟩

/-- UnwrittenEntriesAreUnobservable: two states that do differ in an unwritten entry. -/
theorem witness_unwritten_entries :
    ∃ s t : State, s ≠ t ∧ s.readyWhenBuilt ∧ s.sameButUnwritten t := by
  refine ⟨State.reset, { State.reset with table := Vector.replicate 256 1#32 }, ?_, ⟨fun h => (nomatch h), fun h => ?_⟩,
    rfl, ?_⟩
  · intro h
    have := congrArg (fun s : State => entryAt s.table 0#8) h
    simp [State.reset, entryAt_replicate] at this
  · have := h 0#8
    simp [State.reset, entryAt_replicate] at this
  · intro i h
    simp [State.reset, entryAt_replicate] at h

/-- NopRule, ClrerrRule, UpdOneRule, UpdTwoRule: words of these opcodes with a reserved bit set. -/
theorem witness_reserved_bits :
    ((0x00000001#32 : Word).extractLsb' 24 8 = 0x00#8 ∧ (0x00000001#32 : Word).extractLsb' 0 24 ≠ 0#24) ∧
      ((0x02800000#32 : Word).extractLsb' 24 8 = 0x02#8 ∧ (0x02800000#32 : Word).extractLsb' 0 24 ≠ 0#24) ∧
      ((0x11000100#32 : Word).extractLsb' 24 8 = 0x11#8 ∧ (0x11000100#32 : Word).extractLsb' 8 16 ≠ 0#16) ∧
      ((0x12800000#32 : Word).extractLsb' 24 8 = 0x12#8 ∧ (0x12800000#32 : Word).extractLsb' 16 8 ≠ 0#8) := by
  decide

/-- UpdOneRule, UpdTwoRule, UpdThreeRule: words of these rows, operands at both ends, and their decodings. -/
theorem witness_update_words :
    ((0x110000FF#32 : Word) &&& 0xFFFFFF00#32 = 0x11000000#32 ∧ decode 0x110000FF#32 = .command (.upd1 0xFF#8)) ∧
      ((0x1200FF00#32 : Word) &&& 0xFFFF0000#32 = 0x12000000#32 ∧
        decode 0x1200FF00#32 = .command (.upd2 0x00#8 0xFF#8)) ∧
      ((0x13FF00FF#32 : Word) &&& 0xFF000000#32 = 0x13000000#32 ∧
        decode 0x13FF00FF#32 = .command (.upd3 0xFF#8 0x00#8 0xFF#8)) := by decide

/-- UpdOneRule, UpdTwoRule, UpdThreeRule, OneShotBeforeReadyLosesItsBytes: READY at each value. -/
theorem witness_ready_values : readyState.ready = true ∧ State.reset.ready = false := ⟨rfl, rfl⟩

/-- InitRule and ClrerrRule: the seeds and the STATUS their clauses name. -/
theorem witness_init_and_clrerr :
    (∃ s : State, s.seed = 0x00000000#32) ∧ (∃ s : State, s.seed = 0xFFFFFFFF#32) ∧
      (∃ s : State, s.seed = readReg s .digest) ∧ (∃ s : State, s.seed = 0x12345678#32) ∧
      (∃ s : State, s.errIllegal = false ∧ s.errNotReady = false) ∧
      ∃ s : State, statusWord s = 0x00000007#32 :=
  ⟨⟨State.reset, rfl⟩, ⟨State.reset.setSeed 0xFFFFFFFF#32, rfl⟩, ⟨State.reset, by decide⟩,
    ⟨State.reset.setSeed 0x12345678#32, rfl⟩, ⟨State.reset, rfl, rfl⟩,
    ⟨(readyState.setErrIllegal true).setErrNotReady true, by decide⟩⟩

/-- CommandFrame, CommandsReadOnlyTheirOperands: each premise on the command and READY is met. -/
theorem witness_command_frame :
    (∃ t, exec .nop State.reset = .next t) ∧ Instr.nop ≠ .init ∧ Instr.nop ≠ .clrerr ∧
      ¬(needsTable (.upd1 0#8) = true ∧ State.reset.ready = true) ∧
      ¬(needsTable (.upd1 0#8) = true ∧ readyState.ready = false) ∧
      (needsTable .init = false ∨ readyState.ready = false) :=
  ⟨⟨_, rfl⟩, by decide, by decide, fun h => (nomatch h.2), fun h => (nomatch h.2), .inl rfl⟩

/-- StepRunsTheDecodedCommand, both clauses. -/
theorem witness_step_runs :
    (∃ (s : State) (w : Word) (i : Instr) (rest : List Event),
        s.rstN = true ∧ s.events = .access (cmdWrite w) :: rest ∧ decode w = .command i ∧ i.wellFormed = true) ∧
      decodeTableWord 32 0x110000FF = some (.upd1 0xFF#8) :=
  ⟨⟨stateWith true true [.access (cmdWrite 0x1200FFFF#32)], _, .upd2 0xFF#8 0xFF#8, [], rfl, rfl, by decide, rfl⟩,
    by decide⟩

/-- AccessShapeDecidesTheResponse, ErrorPriority: a narrow access, a misaligned one at the top of the window, a legal one. -/
theorem witness_access_shapes :
    (∃ (s : State) (a : Access) (rest : List Event), s.rstN = true ∧ s.events = .access a :: rest ∧ a.size ≠ .four) ∧
      (∃ (s : State) (a : Access) (rest : List Event),
        s.rstN = true ∧ s.events = .access a :: rest ∧ a.size = .four ∧ a.off.toNat % 4 ≠ 0) ∧
      ∃ (s : State) (a : Access) (rest : List Event),
        s.rstN = true ∧ s.events = .access a :: rest ∧ a.size = .four ∧ a.off.toNat % 4 = 0 :=
  ⟨⟨stateWith true true [.access ⟨.write, 0x08#6, .two, 0#32⟩], _, [], rfl, rfl, by decide⟩,
    ⟨stateWith true true [.access ⟨.read, 0x3F#6, .four, 0#32⟩], _, [], rfl, rfl, rfl, by decide⟩,
    ⟨stateWith true true [.access ⟨.read, 0x3C#6, .four, 0#32⟩], _, [], rfl, rfl, rfl, by decide⟩⟩

/-- LegalReadReturnsTheRegister, LegalWriteHasItsEffect: every case's offset, the two ends of the reserved range among
them, is aligned, and such an access can be next. -/
theorem witness_legal_offsets :
    (∀ off ∈ [0x00#6, 0x04#6, 0x08#6, 0x0C#6, 0x10#6, 0x14#6, 0x18#6, 0x1C#6, 0x20#6, 0x3C#6],
        BitVec.toNat off % 4 = 0) ∧
      ∀ (dir : Dir) (off : Offset), ∃ (s : State) (v : Word) (rest : List Event),
        s.rstN = true ∧ s.events = .access ⟨dir, off, .four, v⟩ :: rest :=
  ⟨by decide, fun dir off => ⟨stateWith true true [.access ⟨dir, off, .four, 1#32⟩], 1#32, [], rfl, rfl⟩⟩

/-- WrittenRegistersReadBack, both clauses. -/
theorem witness_write_then_read :
    (∃ (s : State) (v : Word) (rest : List Event),
        s.rstN = true ∧ s.events = lineEvents [wrLine .seed v, rdLine .seed] ++ rest) ∧
      ∃ (s : State) (v : Word) (rest : List Event),
        s.rstN = true ∧ s.events = lineEvents [wrLine .tblIndex v, rdLine .tblIndex] ++ rest :=
  ⟨⟨stateWith true true (lineEvents [wrLine .seed 0xFFFFFFFF#32, rdLine .seed]), 0xFFFFFFFF#32, [], rfl, rfl⟩,
    ⟨stateWith true true (lineEvents [wrLine .tblIndex 0x1FF#32, rdLine .tblIndex]), 0x1FF#32, [], rfl, rfl⟩⟩

/-- ReadsHaveNoSideEffect: the same read twice, each completing. -/
theorem witness_two_reads :
    ∃ (s t u : State) (a : Access) (rest : List Event), s.rstN = true ∧ a.dir = .read ∧
      s.events = .access a :: .access a :: rest ∧ step s = .next t ∧ step t = .next u := by
  refine ⟨stateWith true true [.access ⟨.read, regOffset .digest, .four, 0#32⟩,
    .access ⟨.read, regOffset .digest, .four, 0#32⟩], _, _, _, [], rfl, rfl, rfl,
    (step_access rfl rfl).trans (hostAccess_readReg .digest 0#32 _),
    (step_access rfl rfl).trans (hostAccess_readReg .digest 0#32 _)⟩

/-- NotReadySetsOnlyItsBit, ErrorPriority: an update written at READY = 0. -/
theorem witness_not_ready :
    ∃ (s : State) (w : Word) (i : Instr) (rest : List Event),
      s.rstN = true ∧ s.events = .access (cmdWrite w) :: rest ∧ decode w = .command i ∧ needsTable i = true ∧
        s.ready = false :=
  ⟨stateWith false true [.access (cmdWrite 0x11000031#32)], _, .upd1 0x31#8, [], rfl, rfl, by decide, rfl, rfl⟩

/-- NotReadySetsOnlyItsBit's second clause: a step that sets the bit. -/
theorem witness_not_ready_bit_rises :
    ∃ s t : State, step s = .next t ∧ s.errNotReady = false ∧ t.errNotReady = true := by
  refine ⟨stateWith false true [.access (cmdWrite 0x11000031#32)],
    ((stateWith false true []).respond writeResponse).setErrNotReady true, ?_, rfl, rfl⟩
  · rw [step_access (rest := []) rfl rfl, hostAccess_cmdWrite, execCmd,
      show decode 0x11000031#32 = .command (.upd1 0x31#8) by decide]
    rfl

/-- ErrorBitsClearedOnlyByClrerrOrReset: a step that clears a bit. -/
theorem witness_error_bit_falls :
    ∃ s t : State, step s = .next t ∧
      (s.errIllegal = true ∧ t.errIllegal = false ∨ s.errNotReady = true ∧ t.errNotReady = false) :=
  ⟨(stateWith true true [.assertReset]).setErrIllegal true, _, step_assertReset (rest := []) rfl, .inl ⟨rfl, rfl⟩⟩

/-- RegWrittenOnlyByInitUpdatesAndReset, SeedAndIndexWrittenOnlyByTheirWrites: steps that change REG, SEED, TBL_INDEX. -/
theorem witness_registers_change :
    (∃ s t : State, step s = .next t ∧ t.reg ≠ s.reg) ∧ (∃ s t : State, step s = .next t ∧ t.seed ≠ s.seed) ∧
      ∃ s t : State, step s = .next t ∧ t.tblIndex ≠ s.tblIndex :=
  ⟨⟨(stateWith true true [.assertReset]).setReg 0#32, _, step_assertReset (rest := []) rfl, by decide⟩,
    ⟨stateWith true true [.access ⟨.write, regOffset .seed, .four, 5#32⟩], _,
      (step_access rfl rfl).trans (hostAccess_writeReg .seed 5#32 _), by decide⟩,
    ⟨stateWith true true [.access ⟨.write, regOffset .tblIndex, .four, 5#32⟩], _,
      (step_access rfl rfl).trans (hostAccess_writeReg .tblIndex 5#32 _), by decide⟩⟩

/-- EverySplitGivesTheSameRegister: two different splits of the same three bytes. -/
theorem witness_splits :
    readyState.ready = true ∧
      (∀ i ∈ [Instr.upd3 1#8 2#8 3#8, .nop] ++ [.upd1 1#8, .upd0, .upd2 2#8 3#8], i ≠ .init ∧ i ≠ .clrerr) ∧
      [Instr.upd3 1#8 2#8 3#8, .nop].flatMap dataBytes = [Instr.upd1 1#8, .upd0, .upd2 2#8 3#8].flatMap dataBytes := by
  refine ⟨rfl, by decide, by decide⟩

/-- OneShotSequenceReadsCrc, OneShotBeforeReadyLosesItsBytes, EmptyInputGivesTheSeed: the sequences at the port. -/
theorem witness_one_shot :
    (∃ (s : State) (bytes : List Byte) (k : Word) (rest : List Event), s.Inv ∧ s.ready = true ∧ s.rstN = true ∧
        bytes.length = 4 ∧ s.events = lineEvents (initLines k ++ updLines bytes ++ digestLines) ++ rest) ∧
      (∃ (s : State) (bytes : List Byte) (k : Word) (rest : List Event), s.ready = false ∧ s.rstN = true ∧
        bytes ≠ [] ∧ s.events = lineEvents (initLines k ++ updLines bytes ++ digestLines) ++ rest) ∧
      ∃ (s : State) (k : Word) (rest : List Event), s.rstN = true ∧
        s.events = lineEvents (initLines k ++ digestLines) ++ rest := by
  refine ⟨⟨readyState.setEvents (lineEvents (initLines 7#32 ++ updLines [1#8, 2#8, 3#8, 4#8] ++ digestLines)),
      [1#8, 2#8, 3#8, 4#8], 7#32, [], ⟨readyState_inv.1, readyState_inv.2.1, fun h => (nomatch h)⟩, rfl, rfl, rfl,
      by simp⟩,
    ⟨stateWith false true (lineEvents (initLines 7#32 ++ updLines [1#8] ++ digestLines)), [1#8], 7#32, [], rfl, rfl,
      by decide, by simp [stateWith]⟩,
    ⟨stateWith false true (lineEvents (initLines 7#32 ++ digestLines)), 7#32, [], rfl, by simp [stateWith]⟩⟩

/-- DigestChainsThroughTheSeed: a digest that was read. -/
theorem witness_digest : ∃ (s : State) (d : Word), d = readReg s .digest := ⟨readyState, _, rfl⟩

/-- A host sequence with a line of each kind. -/
def hostProg : List HostLine :=
  [wrLine .seed 5#32, rdLine .status, .wr .two 0x08#6 1#32, .rd .one 0x3F#6, .label 3, .bneM 3 1#32 1#32, .halt,
    .wr .four 0x0E#6 1#32, .rd .four 0x3D#6]

/-- A host at a line of it, beside CORE right after reset. -/
def hostAt (line : Nat) (h : Word) : HostState := ⟨line, h, .okay, false, State.reset⟩

/-- `poll 0x20, mask, val`, at a reserved offset given literally, and `poll STATUS` (R88, R89). -/
theorem test_poll_expands :
    pollLines 3 0x20#6 0xF0#32 0x10#32 = [.label 3, .rd .four 0x20#6, .bneM 3 0xF0#32 0x10#32] ∧
      waitReadyLines 3 = [.label 3, rdLine .status, .bneM 3 0x1#32 0x1#32] := by decide

/-- HostLinesHaveTheirMeaning: the host at a line of that sequence, not halted, rst_n released. -/
theorem witness_host_state (line : Nat) (h : Word) :
    (hostAt line h).halted = false ∧ (hostAt line h).core.rstN = true ∧ (hostAt line h).line = line ∧
      (hostAt line h).h = h := ⟨rfl, rfl, rfl, rfl⟩

/-- HostLinesHaveTheirMeaning, the `wr` and `rd` lines, legal and narrow. -/
theorem witness_host_wr : hostProg[0]? = some (.wr .four 0x0C#6 5#32) := rfl

theorem witness_host_wr_completes :
    ∃ c, regWrite 0x0C#6 5#32 (State.reset.respond writeResponse) = .next c := ⟨_, rfl⟩

theorem witness_host_rd : hostProg[1]? = some (.rd .four 0x04#6) := rfl

theorem witness_host_narrow_wr : hostProg[2]? = some (.wr .two 0x08#6 1#32) := rfl

theorem witness_host_narrow_rd : hostProg[3]? = some (.rd .one 0x3F#6) := rfl

theorem witness_host_misaligned :
    hostProg[7]? = some (.wr .four 0x0E#6 1#32) ∧ (0x0E#6 : Offset).toNat % 4 ≠ 0 ∧
      hostProg[8]? = some (.rd .four 0x3D#6) ∧ (0x3D#6 : Offset).toNat % 4 ≠ 0 := ⟨rfl, by decide, rfl, by decide⟩

/-- HostLinesHaveTheirMeaning, the label, the branch taken (h = 0) and not taken (h = 1), and `halt`. -/
theorem witness_host_label : hostProg[4]? = some (.label 3) := rfl

theorem witness_host_branch : hostProg[5]? = some (.bneM 3 1#32 1#32) := rfl

theorem witness_host_branch_masks : (1#32 : Word) &&& 1#32 = 1#32 ∧ (0#32 : Word) &&& 1#32 ≠ 1#32 := by decide

theorem witness_host_branch_target : hostProg.findIdx? (fun x => x == .label 3) = some 4 := by decide

theorem witness_host_halt : hostProg[6]? = some .halt := rfl

/-! ## Fair runs -/

/-- FairRunsFinishTheBuild: a fair run from reset, READY = 0, in which the builder finishes at the first step and the host
reads STATUS ever after. -/
theorem witness_fair_core_run :
    ∃ (events : Nat → Event) (core : Nat → State) (m : Nat), FairCoreRun events core ∧ (core m).rstN = true ∧
      (core m).ready = false ∧ ∀ n, m ≤ n → (events n).noReset := by
  let read : Access := ⟨.read, regOffset .status, .four, 0#32⟩
  let built : State := finishBuild State.reset
  let shown : State := built.respond (readResponse (readReg built .status))
  refine ⟨fun n => if n = 0 then .build allEntries else .access read,
    fun n => if n = 0 then State.reset else if n = 1 then built else shown, 0, ⟨fun n => ?_, ?_⟩, rfl, rfl, fun n _ => ?_⟩
  · match n with
    | 0 =>
      refine (step_build (rest := []) rfl).trans ?_
      rw [builderTurn_released rfl, ← finishBuild_eq_builderStep]
      rfl
    | 1 => exact (step_access (rest := []) rfl rfl).trans (hostAccess_readReg .status 0#32 _)
    | n + 2 => exact (step_access (rest := []) rfl rfl).trans (hostAccess_readReg .status 0#32 _)
  · refine fairToBuilder_of_ready (k := 1) fun n hn => ?_
    match n with
    | 1 => rfl
    | n + 2 => rfl
  · match n with
    | 0 => trivial
    | n + 1 => trivial

/-- The host sequence `rd POLY; crc32c 7, [1]; halt`. -/
def fairProg : List HostLine := [rdLine .poly] ++ crc32cLines 0 7#32 [1#8] ++ [.halt]

/-- Who moves: the host, but for one turn of the builder after the host has polled READY = 0 once. -/
def fairTurns (n : Nat) : HostTurn := if n = 4 then .builder allEntries else .host

/-- A system run by these turns. Where a turn does not complete, it stays as it is. -/
def systemAt (prog : List HostLine) (turns : Nat → HostTurn) (start : HostState) : Nat → HostState
  | 0 => start
  | n + 1 => (nextState (hostStep prog (turns n) (systemAt prog turns start n))).getD (systemAt prog turns start n)

/-- CrcSequenceComputesInEveryFairRun: a fair run of that sequence from reset, the host at the
first line of `wait_ready`, READY = 0. -/
theorem witness_fair_host_run :
    ∃ (turns : Nat → HostTurn) (sys : Nat → HostState) (m : Nat),
      FairHostRun ([rdLine .poly] ++ crc32cLines 0 7#32 [1#8] ++ [.halt]) turns sys ∧
        HostLine.label 0 ∉ [rdLine .poly] ∧ (sys m).halted = false ∧ (sys m).core.rstN = true ∧
        (sys m).core.ready = false ∧ (sys m).core.Inv ∧ (sys m).line = [rdLine .poly].length := by
  have hp : labelsResolve fairProg := by
    intro l mask val h
    have : l = 0 := by
      simpa [fairProg, crc32cLines, waitReadyLines, pollLines, initLines, updLines, updCommands, digestLines, wrLine,
        rdLine, cmdLine] using And.left (by simpa [fairProg, crc32cLines, waitReadyLines, pollLines, initLines, updLines,
        updCommands, digestLines, wrLine, rdLine, cmdLine] using h)
    subst this
    exact ⟨1, by decide⟩
  let sys := systemAt fairProg fairTurns (hostAt 1 0#32)
  have next : ∀ n, (sys n).core.rstN = true → hostStep fairProg (fairTurns n) (sys n) = .next (sys (n + 1)) ∧
      (sys (n + 1)).core.rstN = true ∧ ((sys n).core.ready = true → (sys (n + 1)).core.ready = true) := by
    intro n hr
    obtain ⟨m', hm, h1, h2⟩ := hostStep_next hp (fairTurns n) (sys n) hr
    have e : sys (n + 1) = m' := by
      show (nextState (hostStep fairProg (fairTurns n) (sys n))).getD (sys n) = m'
      rw [hm]
      rfl
    rw [e]
    exact ⟨hm, h1, h2⟩
  have hr : ∀ n, (sys n).core.rstN = true := fun n => by
    induction n with
    | zero => rfl
    | succ n ih => exact (next n ih).2.1
  have builder : ∀ m m' : HostState, hostStep fairProg (.builder allEntries) m = .next m' →
      m'.core = builderTurn allEntries m.core := fun m m' h => by
    injection h with h
    rw [← h]
  have hd : ∀ n, (sys (n + 5)).core.ready = true := fun n => by
    induction n with
    | zero =>
      rw [builder _ _ (next 4 (hr 4)).1]
      exact builderTurn_allEntries_ready (hr 4)
    | succ n ih => exact (next (n + 5) (hr (n + 5))).2.2 ih
  refine ⟨fairTurns, sys, 0, ⟨fun n => (next n (hr n)).1, fairToBuilder_of_ready (k := 5) fun n hn => ?_, fun n => ?_⟩,
    by decide, rfl, rfl, rfl, ?_, rfl⟩
  · obtain ⟨d, rfl⟩ := Nat.exists_eq_add_of_le hn
    rw [Nat.add_comm]
    exact hd d
  · exact ⟨n + 5, by omega, by simp [fairTurns]⟩
  · refine ⟨fun i h => ?_, ⟨fun h => (nomatch h), fun h => ?_⟩, fun h => (nomatch h)⟩
    · simp [sys, systemAt, hostAt, State.reset, entryAt_replicate] at h
    · have := h 0#8
      simp [sys, systemAt, hostAt, State.reset, entryAt_replicate] at this

/-- WaitReadyEndsInEveryFairRun: the same run. -/
theorem witness_fair_wait :
    ∃ (turns : Nat → HostTurn) (sys : Nat → HostState) (m : Nat),
      FairHostRun ([rdLine .poly] ++ waitReadyLines 0 ++ (initLines 7#32 ++ updLines [1#8] ++ digestLines ++ [.halt]))
          turns sys ∧
        HostLine.label 0 ∉ [rdLine .poly] ∧ (sys m).halted = false ∧ (sys m).core.rstN = true ∧
        (sys m).line = [rdLine .poly].length := by
  obtain ⟨turns, sys, m, h, hl, hh, hr, -, -, hm⟩ := witness_fair_host_run
  exact ⟨turns, sys, m, by simpa [crc32cLines] using h, hl, hh, hr, hm⟩

/-- R105: a host that polls READY = 0 forever, with no turn of the builder, is no fair run. -/
theorem test_endless_poll_is_not_fair (prog : List HostLine) (sys : Nat → HostState)
    (hr : ∀ n, (sys n).core.rstN = true) (hd : ∀ n, (sys n).core.ready = false) :
    ¬FairHostRun prog (fun _ => .host) sys := by
  intro h
  obtain ⟨k, -, hk | hk⟩ := h.fair 0
  · simp [State.builderEnabled, hr, hd] at hk
  · cases hk

end Sys2Proof.Tests
end

section
/-! The state right after reset (10_state.md R34): BUILD entry by entry, and DIGEST as the host reads it. -/

namespace Sys2Proof.Machine

@[simp] theorem entryAt_reset_build (i : Byte) : entryAt State.reset.build i = false := entryAt_replicate false i

@[simp] theorem readReg_digest (s : State) : readReg s .digest = ~~~s.reg := rfl

/-- REG is all ones after reset, and DIGEST is its complement. -/
theorem readReg_digest_reset : readReg State.reset .digest = 0x00000000#32 :=
  calc readReg State.reset .digest
    _ = ~~~State.reset.reg := readReg_digest _
    _ = ~~~0xFFFFFFFF#32 := rfl
    _ = 0x00000000#32 := by decide

/-- Settles O1: the scalar elements are the fields of `State.reset`; BUILD and DIGEST have their lemmas. -/
theorem resetStateHasItsValues : Obligations.ResetStateHasItsValues := by
  unfold Obligations.ResetStateHasItsValues
  exact ⟨rfl, rfl, rfl, rfl, rfl, rfl, entryAt_reset_build, readReg_digest_reset⟩

end Sys2Proof.Machine
end

section
/-! The host port (20_memory.md R52 to R54): what an access of each shape does, what every offset reads and writes, and the
response every write keeps. -/

namespace Sys2Proof.Machine

/-- The reserved offsets are those of no register (R33). -/
theorem regAt_eq_none_iff {off : Offset} : regAt off = none ↔
    off ≠ 0x00#6 ∧ off ≠ 0x04#6 ∧ off ≠ 0x08#6 ∧ off ≠ 0x0C#6 ∧ off ≠ 0x10#6 ∧ off ≠ 0x14#6 ∧ off ≠ 0x18#6 ∧
      off ≠ 0x1C#6 := by
  simp [regAt, ite_eq_iff]

@[simp] theorem regRead_regOffset (s : State) (r : Reg) : regRead s (regOffset r) = readReg s r := by
  simp [regRead]

theorem regRead_reserved (s : State) {off : Offset} (h : regAt off = none) : regRead s off = 0x00000000#32 := by
  simp [regRead, h]

theorem regWrite_reserved (v : Word) (s : State) {off : Offset} (h : regAt off = none) : regWrite off v s = .next s := by
  simp [regWrite, h]

/-- STATUS as the disjunction of its three bits, each at its place (R24). -/
theorem statusWord_eq_or (s : State) :
    statusWord s = (if s.errNotReady then 4#32 else 0#32) ||| (if s.errIllegal then 2#32 else 0#32) |||
      (if s.ready then 1#32 else 0#32) := by
  have shifted : ∀ b : Bool,
      flagWord b <<< 2 = (if b then 4#32 else 0#32) ∧ flagWord b <<< 1 = (if b then 2#32 else 0#32) := by decide
  rw [statusWord, (shifted _).1, (shifted _).2, flagWord]

theorem hostAccess_misshapen {a : Access} (h : accessLegal a = false) (s : State) :
    hostAccess a s = .next (s.respond busErrorResponse) := by
  simp [hostAccess, h]

theorem hostAccess_read {a : Access} (h : accessLegal a = true) (hd : a.dir = .read) (s : State) :
    hostAccess a s = .next (s.respond (readResponse (regRead s a.off))) := by
  simp [hostAccess, h, hd]

theorem hostAccess_write {a : Access} (h : accessLegal a = true) (hd : a.dir = .write) (s : State) :
    hostAccess a s = regWrite a.off a.wdata (s.respond writeResponse) := by
  simp [hostAccess, h, hd]

/-- A command completes and leaves the response of its access as it is. -/
theorem exec_keeps_lastResponse (i : Instr) (s : State) :
    ∃ t, exec i s = .next t ∧ t.lastResponse = s.lastResponse := by
  rcases exec_cases (rfl : exec i s = _) with ⟨v, _, h⟩ | ⟨_, h⟩ | ⟨_, _, h⟩ | ⟨_, h⟩ <;> exact ⟨_, h, rfl⟩

/-- A word written to CMD completes and leaves the response as it is, an ILLEGAL one too. -/
theorem execCmd_keeps_lastResponse (w : Word) (s : State) :
    ∃ t, execCmd w s = .next t ∧ t.lastResponse = s.lastResponse := by
  unfold execCmd
  cases decode w with
  | command i => exact exec_keeps_lastResponse i s
  | illegal why => exact ⟨_, rfl, rfl⟩

/-- A write completes and leaves the response as it is, at every offset. -/
theorem regWrite_keeps_lastResponse (off : Offset) (v : Word) (s : State) :
    ∃ t, regWrite off v s = .next t ∧ t.lastResponse = s.lastResponse := by
  unfold regWrite
  cases regAt off with
  | none => exact ⟨_, rfl, rfl⟩
  | some r =>
    cases r with
    | cmd => exact execCmd_keeps_lastResponse v s
    | seed | tblIndex | poly | status | state | digest | tblData => exact ⟨_, rfl, rfl⟩

/-- Settles O38: `accessLegal` splits the accesses; a misshapen one is a BusError, and of the legal ones a read answers OKAY
itself and a write keeps the OKAY it was answered with. -/
theorem accessShapeDecidesTheResponse : Obligations.AccessShapeDecidesTheResponse := by
  unfold Obligations.AccessShapeDecidesTheResponse
  refine ⟨fun s a rest hr he hshape => ?_, fun s a rest hr he hsize halign => ?_⟩
  · have hl : accessLegal a = false := by
      rw [← Bool.not_eq_true, accessLegal_iff, not_and_or]
      exact hshape
    rw [step_access he hr, hostAccess_misshapen hl]
    rfl
  · have hl : accessLegal a = true := (accessLegal_iff a).2 ⟨hsize, halign⟩
    rw [step_access he hr]
    cases hd : a.dir with
    | read => exact ⟨_, _, hostAccess_read hl hd _, rfl⟩
    | write =>
      obtain ⟨t, ht, hresp⟩ := regWrite_keeps_lastResponse a.off a.wdata ((s.setEvents rest).respond writeResponse)
      exact ⟨t, none, (hostAccess_write hl hd _).trans ht, hresp⟩

/-- Settles O39: the read answers `regRead`, which is 0 at a reserved offset and `readReg` at each register's own. -/
theorem legalReadReturnsTheRegister : Obligations.LegalReadReturnsTheRegister := by
  unfold Obligations.LegalReadReturnsTheRegister
  intro s off d rest hr he halign
  rw [step_access he hr, hostAccess_read ((accessLegal_iff _).2 ⟨rfl, halign⟩) rfl]
  cases hreg : regAt off with
  | none =>
    obtain ⟨h0, h1, h2, h3, h4, h5, h6, h7⟩ := regAt_eq_none_iff.1 hreg
    simp only [regRead_reserved _ hreg, h0, h1, h2, h3, h4, h5, h6, h7, if_false]
    rfl
  | some r =>
    obtain rfl := regAt_eq_some hreg
    rw [regRead_regOffset]
    cases r with
    | status =>
      rw [readReg, statusWord_eq_or]
      rfl
    | poly | cmd | seed | state | digest | tblIndex | tblData => rfl

/-- Settles O40: the write runs `regWrite`, which does nothing at a reserved or read-only offset, and keeps the OKAY. -/
theorem legalWriteHasItsEffect : Obligations.LegalWriteHasItsEffect := by
  unfold Obligations.LegalWriteHasItsEffect
  intro s off v rest hr he halign
  rw [step_access he hr, hostAccess_write ((accessLegal_iff _).2 ⟨rfl, halign⟩) rfl]
  refine ⟨?_, regWrite_keeps_lastResponse off v ((s.setEvents rest).respond writeResponse)⟩
  cases hreg : regAt off with
  | none =>
    obtain ⟨-, -, hcmd, hseed, -, -, hindex, -⟩ := regAt_eq_none_iff.1 hreg
    rw [regWrite_reserved _ _ hreg, if_neg hcmd, if_neg hseed, if_neg hindex]
    rfl
  | some r =>
    obtain rfl := regAt_eq_some hreg
    cases r with
    | cmd | seed | tblIndex | poly | status | state | digest | tblData => rfl

end Sys2Proof.Machine
end

section
/-! The decoder (30_encoding.md R84, R85), said once: an equation per opcode, and decoding as the inverse of encoding. -/

namespace Sys2Proof

/-! R84 takes its slices of OPERAND, the model of the whole word. They are the same bits. -/

section slices
variable (w : Word)

theorem operand_slice_lane0 : (w.extractLsb' 0 24).extractLsb' 0 8 = lane0 w := by simp [lane0]

theorem operand_slice_lane1 : (w.extractLsb' 0 24).extractLsb' 8 8 = lane1 w := by simp [lane1]

theorem operand_slice_lane2 : (w.extractLsb' 0 24).extractLsb' 16 8 = lane2 w := by simp [lane2]

theorem operand_slice_upper : (w.extractLsb' 0 24).extractLsb' 8 16 = w.extractLsb' 8 16 := by simp

end slices

/-! The cases of `decode`. -/

section byOpcode
variable {w : Word}

theorem decode_of_op_nop (h : opField w = 0x00#8) :
    decode w = if operandField w = 0#24 then .command .nop else .illegal .reservedLane := by
  simp [decode, ifReservedZero, h]

theorem decode_of_op_init (h : opField w = 0x01#8) :
    decode w = if operandField w = 0#24 then .command .init else .illegal .reservedLane := by
  simp [decode, ifReservedZero, h]

theorem decode_of_op_clrerr (h : opField w = 0x02#8) :
    decode w = if operandField w = 0#24 then .command .clrerr else .illegal .reservedLane := by
  simp [decode, ifReservedZero, h]

theorem decode_of_op_upd0 (h : opField w = 0x10#8) :
    decode w = if operandField w = 0#24 then .command .upd0 else .illegal .reservedLane := by
  simp [decode, ifReservedZero, h]

theorem decode_of_op_upd1 (h : opField w = 0x11#8) :
    decode w = if w.extractLsb' 8 16 = 0#16 then .command (.upd1 (lane0 w)) else .illegal .reservedLane := by
  simp [decode, ifReservedZero, h, upperLanes_eq_zero]

theorem decode_of_op_upd2 (h : opField w = 0x12#8) :
    decode w = if lane2 w = 0#8 then .command (.upd2 (lane0 w) (lane1 w)) else .illegal .reservedLane := by
  simp [decode, ifReservedZero, h]

theorem decode_of_op_upd3 (h : opField w = 0x13#8) :
    decode w = .command (.upd3 (lane0 w) (lane1 w) (lane2 w)) := by
  simp [decode, h]

theorem decode_of_op_unassigned (h : opField w ∉ [0x00#8, 0x01#8, 0x02#8, 0x10#8, 0x11#8, 0x12#8, 0x13#8]) :
    decode w = .illegal .unassignedOpcode := by
  simp_all [decode]

end byOpcode

/-- The ILLEGAL words of R85: no command's opcode, or a command's opcode with a bit set in a lane that must be 0. -/
theorem decode_illegal_iff (w : Word) : (∃ why, decode w = .illegal why) ↔
    (opField w ∉ [0x00#8, 0x01#8, 0x02#8, 0x10#8, 0x11#8, 0x12#8, 0x13#8] ∨
      (opField w ∈ [0x00#8, 0x01#8, 0x02#8, 0x10#8] ∧ operandField w ≠ 0#24) ∨
      (opField w = 0x11#8 ∧ w.extractLsb' 8 16 ≠ 0#16) ∨ (opField w = 0x12#8 ∧ lane2 w ≠ 0#8)) := by
  by_cases hop : opField w ∈ [0x00#8, 0x01#8, 0x02#8, 0x10#8, 0x11#8, 0x12#8, 0x13#8]
  · simp only [List.mem_cons, List.not_mem_nil, or_false] at hop
    rcases hop with h | h | h | h | h | h | h
    · simp [decode_of_op_nop h, h, ite_eq_iff]
    · simp [decode_of_op_init h, h, ite_eq_iff]
    · simp [decode_of_op_clrerr h, h, ite_eq_iff]
    · simp [decode_of_op_upd0 h, h, ite_eq_iff]
    · simp [decode_of_op_upd1 h, h, ite_eq_iff]
    · simp [decode_of_op_upd2 h, h, ite_eq_iff]
    · simp [decode_of_op_upd3 h, h]
  · exact ⟨fun _ => .inl hop, fun _ => ⟨_, decode_of_op_unassigned hop⟩⟩

theorem decode_encode (i : Instr) : decode (encode i) = .command i := by
  cases i with
  | nop | init | clrerr | upd0 => decide
  | upd1 b0 => simp [encode, decode_of_op_upd1, upperLanes_eq_zero]
  | upd2 b0 b1 => simp [encode, decode_of_op_upd2]
  | upd3 b0 b1 b2 => simp [encode, decode_of_op_upd3]

/-- Each branch of `decode` that gives a command fixes all four fields of the word. -/
theorem encode_of_decode {w : Word} {i : Instr} (h : decode w = .command i) : encode i = w := by
  rw [← packWord_fields w]
  unfold decode ifReservedZero at h
  split_ifs at h <;> cases h <;> simp_all [encode, operandField_eq_zero]

theorem decode_eq_command_iff {w : Word} {i : Instr} : decode w = .command i ↔ encode i = w :=
  ⟨encode_of_decode, fun h => h ▸ decode_encode i⟩

end Sys2Proof
end

section
/-! The match and mask form of the opcode map (30_encoding.md R84): the words a row selects are those of its commands. -/

namespace Sys2Proof

theorem encode_matchesRow (i : Instr) : Laws.MatchesRow.Statement i := by
  cases i with
  | nop => exact Laws.MatchesRow.nop
  | init => exact Laws.MatchesRow.init
  | clrerr => exact Laws.MatchesRow.clrerr
  | upd0 => exact Laws.MatchesRow.upd0
  | upd1 b0 => exact Laws.MatchesRow.upd1 b0
  | upd2 b0 b1 => exact Laws.MatchesRow.upd2 b0 b1
  | upd3 b0 b1 b2 => exact Laws.MatchesRow.upd3 b0 b1 b2

theorem exists_opcodeRow_of_mem {r : OpcodeRow} (h : r ∈ opcodeTable) : ∃ i, opcodeRow i = r := by
  simp only [opcodeTable, List.mem_cons, List.not_mem_nil, or_false] at h
  rcases h with rfl | rfl | rfl | rfl | rfl | rfl | rfl <;> exact ⟨_, rfl⟩

/-- A word's masked bits, one field at a time. -/
theorem and_packWord_eq_iff (w : Word) (m3 m2 m1 m0 b3 b2 b1 b0 : Byte) :
    w &&& packWord m3 m2 m1 m0 = packWord b3 b2 b1 b0 ↔
      opField w &&& m3 = b3 ∧ lane2 w &&& m2 = b2 ∧ lane1 w &&& m1 = b1 ∧ lane0 w &&& m0 = b0 := by
  conv_lhs => rw [← packWord_fields w, Laws.MatchesRow.packWord_and, packWord_inj]

/-- A row with the mask 0xFFFFFFFF selects its match word alone. -/
theorem selects_of_full_mask {n : String} {m w : Word} (h : OpcodeRow.selects ⟨n, m, 0xFFFFFFFF#32⟩ w) : m = w := by
  have hw : w &&& BitVec.allOnes 32 = m := h
  rwa [BitVec.and_allOnes, eq_comm] at hw

theorem and_fullByte (b : Byte) : b &&& 0xFF#8 = b := BitVec.and_allOnes

/-- A selected word is the word of a command of that row, whose operands are the lanes the row's mask leaves free. -/
theorem exists_encode_of_selects {i : Instr} {w : Word} (h : (opcodeRow i).selects w) :
    ∃ j, opcodeRow j = opcodeRow i ∧ encode j = w := by
  cases i with
  | nop => exact ⟨.nop, rfl, selects_of_full_mask h⟩
  | init => exact ⟨.init, rfl, selects_of_full_mask h⟩
  | clrerr => exact ⟨.clrerr, rfl, selects_of_full_mask h⟩
  | upd0 => exact ⟨.upd0, rfl, selects_of_full_mask h⟩
  | upd1 b0 =>
    obtain ⟨hop, h2, h1, -⟩ := (and_packWord_eq_iff w 0xFF#8 0xFF#8 0xFF#8 0#8 0x11#8 0#8 0#8 0#8).1 h
    rw [and_fullByte] at hop h2 h1
    exact ⟨.upd1 (lane0 w), rfl, by simpa only [encode, hop, h2, h1] using packWord_fields w⟩
  | upd2 b0 b1 =>
    obtain ⟨hop, h2, -, -⟩ := (and_packWord_eq_iff w 0xFF#8 0xFF#8 0#8 0#8 0x12#8 0#8 0#8 0#8).1 h
    rw [and_fullByte] at hop h2
    exact ⟨.upd2 (lane0 w) (lane1 w), rfl, by simpa only [encode, hop, h2] using packWord_fields w⟩
  | upd3 b0 b1 b2 =>
    obtain ⟨hop, -, -, -⟩ := (and_packWord_eq_iff w 0xFF#8 0#8 0#8 0#8 0x13#8 0#8 0#8 0#8).1 h
    rw [and_fullByte] at hop
    exact ⟨.upd3 (lane0 w) (lane1 w) (lane2 w), rfl, by simpa only [encode, hop] using packWord_fields w⟩

/-- A decoded command's word matches the command's own row, which is one of the table's. -/
theorem own_row_selects {w : Word} {i : Instr} (h : decode w = .command i) :
    opcodeRow i ∈ opcodeTable ∧ (opcodeRow i).selects w :=
  encode_of_decode h ▸ encode_matchesRow i

/-- A row selects exactly the words that decode to a command of that row. -/
theorem selects_iff_decode {r : OpcodeRow} (hr : r ∈ opcodeTable) {w : Word} :
    r.selects w ↔ ∃ i, opcodeRow i = r ∧ decode w = .command i := by
  constructor
  · intro h
    obtain ⟨i, rfl⟩ := exists_opcodeRow_of_mem hr
    obtain ⟨j, hj, rfl⟩ := exists_encode_of_selects h
    exact ⟨j, hj, decode_encode j⟩
  · rintro ⟨i, rfl, hd⟩
    exact (own_row_selects hd).2

end Sys2Proof
end

section
/-! The family 30_encoding.md, settled: the opcode map, the ILLEGAL words, the zero word and the table of examples. -/

namespace Sys2Proof.Machine

/-- A word matches some row exactly when it decodes to a command. -/
theorem exists_selects_iff (w : Word) :
    (∃ r ∈ opcodeTable, r.selects w) ↔ ∃ i, decode w = .command i := by
  constructor
  · rintro ⟨r, hr, h⟩
    obtain ⟨i, -, hd⟩ := (selects_iff_decode hr).1 h
    exact ⟨i, hd⟩
  · rintro ⟨i, hd⟩
    exact ⟨opcodeRow i, own_row_selects hd⟩

/-- The rows are disjoint, since a word decodes to one command only. -/
theorem row_unique_of_selects {w : Word} {r r' : OpcodeRow} (hr : r ∈ opcodeTable) (hr' : r' ∈ opcodeTable)
    (h : r.selects w) (h' : r'.selects w) : r = r' := by
  obtain ⟨i, rfl, hd⟩ := (selects_iff_decode hr).1 h
  obtain ⟨j, rfl, hd'⟩ := (selects_iff_decode hr').1 h'
  rw [Decoded.command.inj (hd.symm.trans hd')]

/-- Settles O12: the cases are the equations of `decode`, one per opcode; a row selects exactly the words that decode to a
command of it. -/
theorem decodeIsTheOpcodeMap : Obligations.DecodeIsTheOpcodeMap := by
  unfold Obligations.DecodeIsTheOpcodeMap
  refine ⟨?_, rfl, fun w i hd => own_row_selects hd, exists_selects_iff,
    fun w r r' hr hr' h h' => row_unique_of_selects hr hr' h h'⟩
  rintro w _ _ rfl rfl
  rw [operand_slice_lane0, operand_slice_lane1, operand_slice_lane2, operand_slice_upper]
  exact ⟨decode_of_op_nop, decode_of_op_init, decode_of_op_clrerr, decode_of_op_upd0, decode_of_op_upd1,
    decode_of_op_upd2, decode_of_op_upd3, decode_of_op_unassigned⟩

theorem execCmd_command {w : Word} {i : Instr} (h : decode w = .command i) (s : State) : execCmd w s = exec i s := by
  simp [execCmd, h]

theorem execCmd_illegal {w : Word} {why : IllegalReason} (h : decode w = .illegal why) (s : State) :
    execCmd w s = .next (s.setErrIllegal true) := by
  simp [execCmd, h, State.raiseError]

/-- Settles O13: `decode_illegal_iff` says which words are ILLEGAL, `execCmd_illegal` what one does. -/
theorem illegalWordsAndTheirEffect : Obligations.IllegalWordsAndTheirEffect := by
  unfold Obligations.IllegalWordsAndTheirEffect
  exact ⟨decode_illegal_iff, by decide +kernel, fun w why s h => execCmd_illegal h s⟩

/-- Settles O8: the write reaches `execCmd`, the zero word decodes as NOP, and NOP changes nothing. -/
theorem zeroWordIsNop : Obligations.ZeroWordIsNop := by
  unfold Obligations.ZeroWordIsNop
  have hd : decode 0x00000000#32 = .command .nop := decode_encode .nop
  refine ⟨hd, fun s rest hr he => ?_⟩
  rw [step_access he hr, hostAccess_cmdWrite, execCmd_command hd]
  rfl

/-- An assembler line gives the word of its command, and that word decodes to the command. -/
theorem assemble_and_decode {c : AsmCommand} {i : Instr} {w : Word} (hc : asmInstr c = some i) (hw : encode i = w) :
    assemble c = some w ∧ decode w = .command i :=
  ⟨by rw [assemble, hc, Option.map_some, hw], decode_eq_command_iff.2 hw⟩

/-- Settles O9: the words that decode to a command are their command's own; the ILLEGAL ones have each their opcode's
reason. -/
theorem encodingExamplesDecode : Obligations.EncodingExamplesDecode := by
  unfold Obligations.EncodingExamplesDecode
  obtain ⟨a3, d3⟩ := assemble_and_decode (c := .upd3 0x31 0x32 0x33) (w := 0x13333231#32) rfl (by decide)
  obtain ⟨a2, d2⟩ := assemble_and_decode (c := .upd2 0x38 0x39) (w := 0x12003938#32) rfl (by decide)
  obtain ⟨a1, d1⟩ := assemble_and_decode (c := .upd1 0x67) (w := 0x11000067#32) rfl (by decide)
  obtain ⟨a1', d1'⟩ := assemble_and_decode (c := .upd1 0xFF) (w := 0x110000FF#32) rfl (by decide)
  obtain ⟨ai, di⟩ := assemble_and_decode (c := .init) (w := 0x01000000#32) rfl (by decide)
  exact ⟨a3, d3, a2, d2, a1, d1, a1', d1', ai, di, decode_of_op_init rfl, decode_of_op_upd1 rfl, decode_of_op_upd2 rfl,
    decode_of_op_unassigned (by decide), decode_of_op_unassigned (by decide), decode_of_op_upd3 rfl⟩

end Sys2Proof.Machine
end

section
/-! The table function T (40_table_generator.md R100, R102): BitStep's two cases, T as an iteration of it, its values
that the spec names, and linearity over XOR. -/

namespace Sys2Proof.Machine

theorem bitStep_of_low_bit {r : Word} (h : r.getLsbD 0 = true) : bitStep r = (r >>> 1) ^^^ 0x82F63B78#32 := by
  rw [bitStep, if_pos h]
  rfl

theorem bitStep_of_no_low_bit {r : Word} (h : r.getLsbD 0 = false) : bitStep r = r >>> 1 := by
  rw [bitStep, if_neg (by rw [h]; decide)]

/-- The low bit of a word is its parity. -/
theorem getLsbD_zero_eq_true_iff (r : Word) : r.getLsbD 0 = true ↔ r.toNat % 2 = 1 := by
  simp [BitVec.getLsbD, Nat.testBit_zero]

theorem bitSteps_eq_iterate (n : Nat) (r : Word) : bitSteps n r = bitStep^[n] r := by
  induction n generalizing r with
  | zero => rfl
  | succ n ih => rw [bitSteps, ih, Function.iterate_succ_apply]

/-- The last of the bit steps, taken apart. -/
theorem bitSteps_succ_last (n : Nat) (r : Word) : bitSteps (n + 1) r = bitStep (bitSteps n r) := by
  rw [bitSteps_eq_iterate, bitSteps_eq_iterate, Function.iterate_succ_apply']

theorem tableEntry_zero : tableEntry 0#8 = 0x00000000#32 := by decide

theorem tableEntry_one : tableEntry 1#8 = 0xF26B8303#32 := by decide

theorem tableEntry_255 : tableEntry 255#8 = 0xAD7D5351#32 := by decide

/-- The one bit of 0x80 is shifted down to bit 0. -/
theorem bitSteps_seven_0x80 : bitSteps 7 0x80#32 = 1#32 := by decide

/-- Seven steps leave 1, and the eighth XORs in the polynomial. -/
theorem tableEntry_0x80 : tableEntry 0x80#8 = 0x82F63B78#32 :=
  calc tableEntry 0x80#8
    _ = bitStep (bitSteps 7 0x80#32) := bitSteps_succ_last 7 0x80#32
    _ = bitStep 1#32 := by rw [bitSteps_seven_0x80]
    _ = (1#32 >>> 1) ^^^ 0x82F63B78#32 := bitStep_of_low_bit rfl
    _ = 0x82F63B78#32 := by decide

/-- The shift is linear, and the low bit of `a ^ b` is set, so that the polynomial goes in, exactly when one of the two
low bits is; when both are, the polynomial cancels. -/
theorem bitStep_xor (a b : Word) : bitStep (a ^^^ b) = bitStep a ^^^ bitStep b := by
  have low : (a ^^^ b).getLsbD 0 = (a.getLsbD 0 ^^ b.getLsbD 0) := BitVec.getLsbD_xor
  have shift : (a ^^^ b) >>> 1 = a >>> 1 ^^^ b >>> 1 := BitVec.ushiftRight_xor_distrib a b 1
  cases ha : a.getLsbD 0 <;> cases hb : b.getLsbD 0 <;> rw [ha, hb] at low
  case false.false => rw [bitStep_of_no_low_bit low, bitStep_of_no_low_bit ha, bitStep_of_no_low_bit hb, shift]
  case false.true =>
    rw [bitStep_of_low_bit low, bitStep_of_no_low_bit ha, bitStep_of_low_bit hb, shift, BitVec.xor_assoc]
  case true.false =>
    rw [bitStep_of_low_bit low, bitStep_of_low_bit ha, bitStep_of_no_low_bit hb, shift]
    ac_rfl
  case true.true =>
    rw [bitStep_of_no_low_bit low, bitStep_of_low_bit ha, bitStep_of_low_bit hb, shift,
      BitVec.xor_comm (b >>> 1), BitVec.xor_assoc, ← BitVec.xor_assoc 0x82F63B78#32, BitVec.xor_self, BitVec.zero_xor]

theorem bitSteps_xor (n : Nat) (a b : Word) : bitSteps n (a ^^^ b) = bitSteps n a ^^^ bitSteps n b := by
  induction n generalizing a b with
  | zero => rfl
  | succ n ih => simp only [bitSteps, bitStep_xor, ih]

theorem zext_xor (a b : Byte) : zext (a ^^^ b) = zext a ^^^ zext b := BitVec.setWidth_xor

theorem tableEntry_xor (a b : Byte) : tableEntry (a ^^^ b) = tableEntry a ^^^ tableEntry b := by
  simp only [tableEntry, zext_xor, bitSteps_xor]

/-- Settles O17: the values are T's at those entries; T is linear because BitStep is, step after step. -/
theorem tableInvariantsAndLinearity : Obligations.TableInvariantsAndLinearity := by
  unfold Obligations.TableInvariantsAndLinearity
  exact ⟨tableEntry_zero, tableEntry_255, bitSteps_seven_0x80, tableEntry_0x80, bitStep_xor, tableEntry_xor⟩

/-- Settles O16: the parity of the word is the bit that BitStep tests, and `bitSteps` iterates BitStep. -/
theorem tableEntryIsEightBitSteps : Obligations.TableEntryIsEightBitSteps := by
  unfold Obligations.TableEntryIsEightBitSteps
  refine ⟨fun r h => bitStep_of_low_bit ((getLsbD_zero_eq_true_iff r).2 h), fun r h => bitStep_of_no_low_bit ?_,
    fun i => bitSteps_eq_iterate 8 (zext i), tableEntry_zero, tableEntry_255, tableEntry_one⟩
  rw [← Bool.not_eq_true, getLsbD_zero_eq_true_iff, h]
  decide

end Sys2Proof.Machine
end

section
/-! The lines of a host sequence at the port: the step that a `wr` or an `rd` line gives (30_encoding.md R88). -/

namespace Sys2Proof.Machine

/-- No register shows what is left to happen. -/
@[simp] theorem readReg_setEvents (s : State) (es : List Event) (r : Reg) :
    readReg (s.setEvents es) r = readReg s r := by
  cases r <;> rfl

section hostLine
variable {s : State} {lines : List HostLine} {rest : List Event}

theorem step_wrLine {r : Reg} {v : Word} (hr : s.rstN = true)
    (he : s.events = lineEvents (wrLine r v :: lines) ++ rest) :
    step s = regWrite (regOffset r) v ((s.setEvents (lineEvents lines ++ rest)).respond writeResponse) :=
  (step_access he hr).trans (hostAccess_writeReg r v _)

theorem step_rdLine {r : Reg} (hr : s.rstN = true) (he : s.events = lineEvents (rdLine r :: lines) ++ rest) :
    step s = .next ((s.setEvents (lineEvents lines ++ rest)).respond (readResponse (readReg s r))) :=
  (step_access he hr).trans (by rw [hostAccess_readReg, readReg_setEvents]; rfl)

end hostLine

theorem run_two {s t u : State} (hs : step s = .next t) (ht : step t = .next u) : run 2 s = .next u :=
  (run_succ hs).trans (run_succ ht)

theorem regWrite_tblIndex (v : Word) (s : State) :
    regWrite (regOffset .tblIndex) v s = .next (s.setTblIndex (lowByte v)) := rfl

end Sys2Proof.Machine
end

section
/-! The table read port (40_table_generator.md R107). -/

namespace Sys2Proof.Machine

theorem tblRead_notReady {s : State} (h : s.ready = false) (idx : Byte) : tblRead s idx = 0x00000000#32 := by
  rw [tblRead, if_neg (by rw [h]; decide)]

/-- READY = 1 says that every entry is written, and a written entry holds T. -/
theorem entryAt_table_of_ready {s : State} (hi : s.Inv) (h : s.ready = true) (idx : Byte) :
    entryAt s.table idx = tableEntry idx := by
  obtain ⟨holdT, whenBuilt, -⟩ := hi
  exact holdT idx (whenBuilt.1 h idx)

theorem tblRead_ready {s : State} (hi : s.Inv) (h : s.ready = true) (idx : Byte) : tblRead s idx = tableEntry idx := by
  rw [tblRead, if_pos h, entryAt_table_of_ready hi h]

/-- At READY = 0 the port shows 0, and at READY = 1 it shows T(0), which is 0. -/
theorem tblRead_zero {s : State} (hi : s.Inv) : tblRead s 0#8 = 0x00000000#32 := by
  cases h : s.ready with
  | false => exact tblRead_notReady h _
  | true => rw [tblRead_ready hi h, tableEntry_zero]

/-- `tbl i`: the write sets TBL_INDEX, and the read answers what the port shows at that index. -/
theorem run_tblLines {s : State} {v : Word} {rest : List Event} (hr : s.rstN = true)
    (he : s.events = lineEvents (tblLines v) ++ rest) :
    run 2 s = .next { s with
      tblIndex := lowByte v, events := rest, lastResponse := some (readResponse (tblRead s (lowByte v))) } := by
  have hwrite := (step_wrLine hr he).trans (regWrite_tblIndex v _)
  exact (run_two hwrite (step_rdLine (r := .tblData) (lines := []) (rest := rest) hr rfl)).trans rfl

/-- Settles O22: `tblRead` has a lemma for each READY, and `tbl 0x80` reads T(0x80). -/
theorem tableReadPort : Obligations.TableReadPort := by
  unfold Obligations.TableReadPort
  refine ⟨fun s idx h => tblRead_notReady h idx, fun s idx hi h => tblRead_ready hi h idx,
    fun s hi => tblRead_zero hi, fun s hi h => by rw [tblRead_ready hi h, tableEntry_255],
    fun s rest hi h hr he => ?_⟩
  have hidx : lowByte 0x80#32 = 0x80#8 := by decide
  rw [run_tblLines hr he, hidx, tblRead_ready hi h, tableEntry_0x80]

end Sys2Proof.Machine
end

section
/-! The accumulator's arithmetic (41_accumulator.md R120 to R122, R133): the table-driven Step is the bit-serial one, Fold
is Step byte after byte, and Crc32c chains through its seed. -/

namespace Sys2Proof.Machine

/-! A byte of eight bit steps: the high bits are only shifted, and the low byte goes through T. -/

/-- While the bits that fall out are 0, bit steps are a shift: the polynomial never goes in. -/
theorem bitSteps_of_low_zero {n : Nat} {r : Word} (h : ∀ i < n, r.getLsbD i = false) : bitSteps n r = r >>> n := by
  induction n generalizing r with
  | zero => rfl
  | succ n ih =>
    have rest : ∀ i < n, (r >>> 1).getLsbD i = false := fun i hi => by
      rw [BitVec.getLsbD_ushiftRight]
      exact h (1 + i) (by omega)
    rw [bitSteps, bitStep_of_no_low_bit (h 0 n.succ_pos), ih rest, ← BitVec.shiftRight_add, Nat.add_comm]

/-- A word is its low byte and its bits above. -/
theorem word_eq_lowByte_xor_high (r : Word) : r = zext (lowByte r) ^^^ (r >>> 8 <<< 8) := by
  apply BitVec.eq_of_getLsbD_eq
  intro i hi
  by_cases h : i < 8
  · simp [zext, lowByte, h, hi]
  · simp [zext, lowByte, h, hi, Nat.add_sub_cancel' (Nat.le_of_not_lt h)]

/-- `w[31:8]`, shifted back into place, has lost nothing. -/
theorem high_shifted_back (r : Word) : r >>> 8 <<< 8 >>> 8 = r >>> 8 := by
  ext i hi
  simpa using BitVec.lt_of_getLsbD

/-- Eight bit steps are one table look-up: T is linear, so the low byte contributes its entry and the rest its shift. -/
theorem bitSteps_eight (r : Word) : bitSteps 8 r = tableEntry (lowByte r) ^^^ (r >>> 8) := by
  have lowZero : ∀ i < 8, (r >>> 8 <<< 8).getLsbD i = false := fun i hi => by simp [hi]
  calc bitSteps 8 r
    _ = bitSteps 8 (zext (lowByte r) ^^^ (r >>> 8 <<< 8)) := by rw [← word_eq_lowByte_xor_high]
    _ = tableEntry (lowByte r) ^^^ bitSteps 8 (r >>> 8 <<< 8) := bitSteps_xor 8 _ _
    _ = tableEntry (lowByte r) ^^^ (r >>> 8) := by rw [bitSteps_of_low_zero lowZero, high_shifted_back]

/-- A byte XORed in does not reach the bits above it. -/
theorem xor_zext_shift (r : Word) (b : Byte) : (r ^^^ zext b) >>> 8 = r >>> 8 := by
  have gone : zext b >>> 8 = 0#32 := by ext i hi; simp [zext]
  rw [BitVec.ushiftRight_xor_distrib, gone, BitVec.xor_zero]

theorem stepByte_fullTable (r : Word) (b : Byte) : stepByte fullTable r b = bitSerialStep r b := by
  rw [stepByte, entryAt_fullTable, bitSerialStep, bitSteps_eight, xor_zext_shift]

/-- Settles O25: eight bit steps look the low byte up and shift the rest, which is Step over the finished table. -/
theorem tableStepEqualsBitSerialStep : Obligations.TableStepEqualsBitSerialStep := by
  unfold Obligations.TableStepEqualsBitSerialStep
  intro r b
  rw [stepByte_fullTable, bitSerialStep, bitSteps_eq_iterate, zext]

/-- `& 0xFF` keeps the low byte. -/
theorem setWidth_and_0xFF (r : Word) : (r &&& 0xFF#32).setWidth 8 = lowByte r := by
  rw [BitVec.setWidth_and, lowByte]
  exact BitVec.and_allOnes

/-- Settles O24: the low byte that Step looks up is `& 0xFF`, and at READY = 1 the entry is T's. -/
theorem stepLooksUpAndShifts : Obligations.StepLooksUpAndShifts := by
  unfold Obligations.StepLooksUpAndShifts
  refine ⟨fun t r b => ?_, fun s r b hi h => ?_⟩
  · rw [stepByte, ← setWidth_and_0xFF]
    rfl
  · rw [stepByte, entryAt_table_of_ready hi h, ← setWidth_and_0xFF]
    rfl

/-! Fold. -/

@[simp] theorem foldBytes_nil (t : Vector Word 256) (r : Word) : foldBytes t r [] = r := rfl

theorem foldBytes_append (t : Vector Word 256) (r : Word) (as bs : List Byte) :
    foldBytes t r (as ++ bs) = foldBytes t (foldBytes t r as) bs := List.foldl_append

/-- Over the finished table Fold needs no table: it is the bit-serial step, byte after byte. -/
theorem foldBytes_fullTable (r : Word) (bytes : List Byte) :
    foldBytes fullTable r bytes = bytes.foldl bitSerialStep r := by
  have h : stepByte fullTable = bitSerialStep := funext₂ stepByte_fullTable
  rw [foldBytes, h]

/-- Settles O26: Fold is the left fold of Step, so the law on a concatenation gives both others. -/
theorem foldEquations : Obligations.FoldEquations := by
  unfold Obligations.FoldEquations
  exact ⟨foldBytes_nil, fun t r bytes b => foldBytes_append t r bytes [b], foldBytes_append⟩

/-! Crc32c. -/

theorem crc32c_nil (k : Word) : crc32c [] k = k := by
  rw [crc32c, foldBytes_nil, BitVec.not_not]

/-- The complement at the end of the first run is undone by the one at the start of the second. -/
theorem crc32c_append (as bs : List Byte) (k : Word) : crc32c (as ++ bs) k = crc32c bs (crc32c as k) := by
  simp only [crc32c, foldBytes_append, BitVec.not_not]

end Sys2Proof.Machine
end

section
/-! What a command does, by its kind (41_accumulator.md R123): the updates fold their bytes or raise NotReady, and lists of
commands run one after another. -/

namespace Sys2Proof.Machine

/-- UPD1 to UPD3 all run `updateBytes` on the bytes they present. -/
theorem exec_of_needsTable {i : Instr} (h : needsTable i = true) (s : State) :
    exec i s = .next (updateBytes (dataBytes i) s) := by
  cases i with
  | nop | init | clrerr | upd0 => cases h
  | upd1 | upd2 | upd3 => rfl

theorem exec_update_ready {i : Instr} (h : needsTable i = true) {s : State} (hr : s.ready = true) :
    exec i s = .next (s.setReg (foldBytes s.table s.reg (dataBytes i))) := by
  rw [exec_of_needsTable h, updateBytes_ready hr]

theorem exec_update_notReady {i : Instr} (h : needsTable i = true) {s : State} (hr : s.ready = false) :
    exec i s = .next (s.setErrNotReady true) := by
  rw [exec_of_needsTable h, updateBytes_notReady hr]

/-- INIT loads the complement of SEED, at any READY. -/
theorem exec_init (s : State) : exec .init s = .next (s.setReg (~~~s.seed)) := rfl

theorem exec_init_of_compl {s : State} {v : Word} (h : ~~~s.seed = v) : exec .init s = .next (s.setReg v) := by
  rw [exec_init, h]

/-- A DIGEST value as SEED is the complement of REG, so INIT gives REG back. -/
theorem exec_init_of_seed_eq_digest {s : State} (h : s.seed = readReg s .digest) : exec .init s = .next s := by
  rw [exec_init, h, readReg_digest, BitVec.not_not]
  rfl

theorem execAll_cons {i : Instr} {s t : State} (h : exec i s = .next t) (rest : List Instr) :
    execAll (i :: rest) s = execAll rest t := by
  rw [execAll, h]

theorem execAll_pair {i j : Instr} {s t : State} (h : exec i s = .next t) : execAll [i, j] s = exec j t := by
  rw [execAll_cons h, execAll]
  cases exec j t <;> rfl

/-- UPD2 is two UPD1: at READY = 1 the second folds on from the first, at READY = 0 both raise the one sticky bit. -/
theorem exec_upd2_eq_two_upd1 (b0 b1 : Byte) (s : State) :
    exec (.upd2 b0 b1) s = execAll [.upd1 b0, .upd1 b1] s := by
  cases hr : s.ready with
  | true =>
    rw [execAll_pair (exec_update_ready rfl hr), exec_update_ready rfl hr, exec_update_ready rfl (by exact hr)]
    rfl
  | false =>
    rw [execAll_pair (exec_update_notReady rfl hr), exec_update_notReady rfl hr, exec_update_notReady rfl (by exact hr)]
    rfl

/-! STATUS and CLRERR. -/

theorem statusWord_bit_zero (s : State) : (statusWord s).getLsbD 0 = s.ready := by
  rw [statusWord_eq_or]
  cases s.errNotReady <;> cases s.errIllegal <;> cases s.ready <;> rfl

/-- With the error bits cleared, STATUS is READY. -/
theorem statusWord_clearErrors {s : State} (h : s.ready = true) : statusWord s.clearErrors = 0x00000001#32 := by
  rw [statusWord_eq_or, State.clearErrors_errNotReady, State.clearErrors_errIllegal, State.clearErrors_ready, h]
  decide

end Sys2Proof.Machine
end

section
/-! The words of UPD1 to UPD3 (41_accumulator.md R128 to R130): those that match under the row's mask, the operands in
the lanes the mask leaves free. -/

namespace Sys2Proof

/-- A word is a packed word exactly when its four fields are the packed ones. -/
theorem packWord_eq_iff {op b2 b1 b0 : Byte} {w : Word} :
    packWord op b2 b1 b0 = w ↔ op = opField w ∧ b2 = lane2 w ∧ b1 = lane1 w ∧ b0 = lane0 w := by
  conv_lhs => rw [← packWord_fields w, packWord_inj]

section updateWords
variable {w : Word} {b0 b1 b2 : Byte}

theorem decode_eq_upd1_iff :
    decode w = .command (.upd1 b0) ↔ w &&& 0xFFFFFF00#32 = 0x11000000#32 ∧ b0 = lane0 w := by
  have masked := and_packWord_eq_iff w 0xFF#8 0xFF#8 0xFF#8 0#8 0x11#8 0#8 0#8 0#8
  rw [decode_eq_command_iff, encode, packWord_eq_iff]
  refine Iff.trans ?_ (and_congr_left' masked.symm)
  simp [and_fullByte, eq_comm, and_comm, and_assoc]

theorem decode_eq_upd2_iff :
    decode w = .command (.upd2 b0 b1) ↔
      w &&& 0xFFFF0000#32 = 0x12000000#32 ∧ b0 = lane0 w ∧ b1 = lane1 w := by
  have masked := and_packWord_eq_iff w 0xFF#8 0xFF#8 0#8 0#8 0x12#8 0#8 0#8 0#8
  rw [decode_eq_command_iff, encode, packWord_eq_iff]
  refine Iff.trans ?_ (and_congr_left' masked.symm)
  simp [and_fullByte, eq_comm, and_comm, and_assoc]

theorem decode_eq_upd3_iff :
    decode w = .command (.upd3 b0 b1 b2) ↔
      w &&& 0xFF000000#32 = 0x13000000#32 ∧ b0 = lane0 w ∧ b1 = lane1 w ∧ b2 = lane2 w := by
  have masked := and_packWord_eq_iff w 0xFF#8 0#8 0#8 0#8 0x13#8 0#8 0#8 0#8
  rw [decode_eq_command_iff, encode, packWord_eq_iff]
  refine Iff.trans ?_ (and_congr_left' masked.symm)
  simp [and_fullByte, eq_comm, and_comm, and_assoc]

end updateWords

/-- A command has the one word that R87 gives it. -/
theorem decode_eq_command_iff_eq_encode {w : Word} {i : Instr} : decode w = .command i ↔ w = encode i :=
  decode_eq_command_iff.trans eq_comm

end Sys2Proof
end

section
/-! The rules of the seven commands, settled (41_accumulator.md R124 to R130): each command's words, its effect at either
READY, its corner cases and its example. -/

namespace Sys2Proof.Machine

/-- Settles O27: NOP has one word, the other words of its opcode are ILLEGAL, and `execNop` changes nothing. -/
theorem nopRule : Obligations.NopRule := by
  unfold Obligations.NopRule
  exact ⟨fun w => decode_eq_command_iff_eq_encode, fun s => rfl,
    fun w hop hlow => (decode_of_op_nop hop).trans (if_neg hlow)⟩

/-- Settles O28: the corner cases are `exec_init` at their seeds; INIT leaves SEED, so a second one loads the same. -/
theorem initRule : Obligations.InitRule := by
  unfold Obligations.InitRule
  refine ⟨fun w => decode_eq_command_iff_eq_encode, exec_init, fun s h => exec_init_of_compl (by rw [h]; decide),
    fun s h => exec_init_of_compl (by rw [h]; decide), fun s h => exec_init_of_seed_eq_digest h, fun s => ?_,
    fun s h => ⟨_, exec_init s, ?_, ?_⟩⟩
  · rw [execAll_pair (exec_init s)]
    rfl
  · rw [State.setReg_reg, h]
    decide
  · rw [readReg_digest, State.setReg_reg, h, BitVec.not_not]

/-- Settles O29: CLRERR clears the two bits and leaves READY, which is bit 0 of STATUS. -/
theorem clrerrRule : Obligations.ClrerrRule := by
  unfold Obligations.ClrerrRule
  refine ⟨fun w => decode_eq_command_iff_eq_encode, fun s => rfl, fun w s hop hlow => ?_, fun s hi hn => ?_,
    fun s h => ⟨s.clearErrors, rfl, statusWord_clearErrors ?_⟩⟩
  · exact execCmd_illegal ((decode_of_op_clrerr hop).trans (if_neg hlow)) s
  · have clear : s.clearErrors = s := State.ext_fields rfl rfl rfl hi.symm hn.symm rfl rfl rfl rfl rfl rfl
    exact congrArg _ clear
  · rw [← statusWord_bit_zero, h]
    rfl

/-- Settles O30: UPD0 folds no byte, which leaves REG. -/
theorem updZeroRule : Obligations.UpdZeroRule := by
  unfold Obligations.UpdZeroRule
  exact ⟨fun w => decode_eq_command_iff_eq_encode, fun s => rfl, fun s => rfl⟩

/-- Settles O31: UPD1 folds one byte; over the finished table its corner cases are the bit-serial step's. -/
theorem updOneRule : Obligations.UpdOneRule := by
  unfold Obligations.UpdOneRule
  refine ⟨fun w h => decode_eq_upd1_iff.2 ⟨h, rfl⟩, fun w b0 h => decode_eq_upd1_iff.1 h,
    fun w hop hupper => (decode_of_op_upd1 hop).trans (if_neg hupper), fun s b0 hr => exec_update_ready rfl hr,
    fun s b0 hr => exec_update_notReady rfl hr, fun s b0 hr => ?_, ?_⟩
  · rw [← exec_upd2_eq_two_upd1, exec_update_ready rfl hr]
    rfl
  · simp only [stepByte_fullTable]
    decide

/-- Settles O32: UPD2 folds two bytes, and is two UPD1 at either READY. -/
theorem updTwoRule : Obligations.UpdTwoRule := by
  unfold Obligations.UpdTwoRule
  refine ⟨fun w h => decode_eq_upd2_iff.2 ⟨h, rfl, rfl⟩, fun w b0 b1 h => decode_eq_upd2_iff.1 h,
    fun w hop h2 => (decode_of_op_upd2 hop).trans (if_neg h2), fun s b0 b1 hr => exec_update_ready rfl hr,
    fun s b0 b1 hr => exec_update_notReady rfl hr, fun s b0 b1 => exec_upd2_eq_two_upd1 b0 b1 s, ?_⟩
  simp only [foldBytes_fullTable]
  decide +kernel

/-- Settles O33: UPD3 folds three bytes; its row leaves no reserved bit. -/
theorem updThreeRule : Obligations.UpdThreeRule := by
  unfold Obligations.UpdThreeRule
  refine ⟨fun w h => decode_eq_upd3_iff.2 ⟨h, rfl, rfl, rfl⟩, fun w b0 b1 b2 h => decode_eq_upd3_iff.1 h,
    fun s b0 b1 b2 hr => exec_update_ready rfl hr, fun s b0 b1 b2 hr => exec_update_notReady rfl hr, ?_⟩
  simp only [foldBytes_fullTable]
  decide +kernel

/-- Settles O54: Fold's law on a concatenation, and INIT on the complement of REG or on REG itself. -/
theorem digestChainsThroughTheSeed : Obligations.DigestChainsThroughTheSeed := by
  unfold Obligations.DigestChainsThroughTheSeed
  refine ⟨crc32c_append, fun s d hd => ?_, fun s => rfl⟩
  exact exec_init_of_seed_eq_digest (s := s.setSeed d) hd

end Sys2Proof.Machine
end

section
/-! CRC results at the port (41_accumulator.md R135, R136): `init k; digest`, and every sequence of accesses and builder
turns as a Fold of the bytes presented. -/

namespace Sys2Proof.Machine

/-! A command written to CMD, and a seed written to SEED. -/

theorem regWrite_seed (v : Word) (s : State) : regWrite (regOffset .seed) v s = .next (s.setSeed v) := rfl

theorem regWrite_cmd_encode (i : Instr) (s : State) : regWrite (regOffset .cmd) (encode i) s = exec i s :=
  execCmd_command (decode_encode i) s

/-- The step of a `cmd` line. -/
theorem step_cmdLine {s : State} {i : Instr} {lines : List HostLine} {rest : List Event} (hr : s.rstN = true)
    (he : s.events = lineEvents (cmdLine i :: lines) ++ rest) :
    step s = exec i ((s.setEvents (lineEvents lines ++ rest)).respond writeResponse) :=
  (step_wrLine hr he).trans (regWrite_cmd_encode i _)

/-- `init k; digest` reads k, at either READY: the complement INIT loads is undone by DIGEST. -/
theorem run_initLines_digestLines {s : State} {k : Word} {rest : List Event} (hr : s.rstN = true)
    (he : s.events = lineEvents (initLines k ++ digestLines) ++ rest) :
    ∃ t, run 3 s = .next t ∧ t.lastResponse = some (readResponse k) := by
  have hseed := (step_wrLine hr he).trans (regWrite_seed k _)
  refine ⟨_, (run_succ hseed).trans (run_two
    (step_cmdLine (i := .init) (lines := digestLines) (rest := rest) hr rfl)
    (step_rdLine (r := .digest) (lines := []) (rest := rest) hr rfl)), ?_⟩
  rw [State.respond_lastResponse, readReg_digest, State.setReg_reg, BitVec.not_not]
  rfl

/-- Settles O53: Fold over no byte is the identity, and the complement taken twice too. -/
theorem emptyInputGivesTheSeed : Obligations.EmptyInputGivesTheSeed := by
  unfold Obligations.EmptyInputGivesTheSeed
  exact ⟨crc32c_nil, crc32c_nil 0x00000000#32, fun s k rest hr he => run_initLines_digestLines hr he,
    readReg_digest_reset⟩

/-! A run at READY = 1 without reset and INIT. -/

/-- From `s` to `t` exactly these bytes were folded into REG, over a table that stays. -/
structure Folded (bytes : List Byte) (s t : State) : Prop where
  reg : t.reg = foldBytes s.table s.reg bytes
  table : t.table = s.table
  ready : t.ready = s.ready
  rstN : t.rstN = s.rstN
  events : t.events = s.events

/-- Folds add up. -/
theorem Folded.trans {as bs : List Byte} {s t u : State} (h : Folded as s t) (h' : Folded bs t u) :
    Folded (as ++ bs) s u where
  reg := by rw [h'.reg, h.table, h.reg, foldBytes_append]
  table := h'.table.trans h.table
  ready := h'.ready.trans h.ready
  rstN := h'.rstN.trans h.rstN
  events := h'.events.trans h.events

/-- What is left to happen plays no part in the Fold. -/
theorem Folded.setEvents {bytes : List Byte} {s t : State} (h : Folded bytes s t) (es : List Event) :
    Folded bytes (s.setEvents es) (t.setEvents es) :=
  ⟨h.reg, h.table, h.ready, h.rstN, rfl⟩

/-- At READY = 1 every command but INIT folds the bytes it presents. -/
theorem exec_folded {i : Instr} {s : State} (hi : i ≠ .init) (hr : s.ready = true) :
    ∃ t, exec i s = .next t ∧ Folded (dataBytes i) s t := by
  cases i with
  | init => exact absurd rfl hi
  | nop | clrerr | upd0 => exact ⟨_, rfl, rfl, rfl, rfl, rfl, rfl⟩
  | upd1 | upd2 | upd3 => exact ⟨_, exec_update_ready rfl hr, rfl, rfl, rfl, rfl, rfl⟩

theorem eventBytes_of_command {w : Word} {i : Instr} (h : decode w = .command i) :
    eventBytes (.access (cmdWrite w)) = dataBytes i := by
  simp [eventBytes, cmdWrite, h]

theorem eventBytes_of_illegal {w : Word} {why : IllegalReason} (h : decode w = .illegal why) :
    eventBytes (.access (cmdWrite w)) = [] := by
  simp [eventBytes, cmdWrite, h]

theorem eventBytes_of_ne_cmdWrite {a : Access} (h : a ≠ cmdWrite a.wdata) : eventBytes (.access a) = [] :=
  if_neg h

/-- A word written to CMD folds the bytes it presents; an ILLEGAL one presents none. -/
theorem cmdWrite_folded {w : Word} {s : State} (hi : decode w ≠ .command .init) (hr : s.ready = true) :
    ∃ t, hostAccess (cmdWrite w) s = .next t ∧ Folded (eventBytes (.access (cmdWrite w))) s t := by
  rw [hostAccess_cmdWrite]
  cases hd : decode w with
  | command i =>
    obtain ⟨t, ht, h⟩ := exec_folded (i := i) (s := s.respond writeResponse) (fun e => hi (by rw [hd, e])) hr
    rw [execCmd_command hd, eventBytes_of_command hd]
    exact ⟨t, ht, h.reg, h.table, h.ready, h.rstN, h.events⟩
  | illegal why =>
    rw [eventBytes_of_illegal hd]
    exact ⟨_, execCmd_illegal hd _, rfl, rfl, rfl, rfl, rfl⟩

/-- Every other access, of whatever shape and at whatever offset, leaves REG. -/
theorem noCommand_folded {a : Access} (ha : a ≠ cmdWrite a.wdata) (s : State) :
    ∃ t, hostAccess a s = .next t ∧ Folded [] s t := by
  rcases hostAccess_cases a s with ⟨_, h⟩ | ⟨_, _, h⟩ | ⟨hc, _⟩ | ⟨_, _, _, h⟩ | ⟨_, _, _, h⟩ | ⟨_, _, h⟩
  case inr.inr.inl => exact absurd hc ha
  all_goals exact ⟨_, h, rfl, rfl, rfl, rfl, rfl⟩

/-- One event at READY = 1 folds the bytes it presents. -/
theorem step_folded {s : State} {e : Event} {rest : List Event} (he : s.events = e :: rest) (hd : s.ready = true)
    (hr : s.rstN = true) (hreset : e.noReset) (hinit : ¬e.issues .init) :
    ∃ t, step s = .next t ∧ Folded (eventBytes e) (s.setEvents rest) t := by
  cases e with
  | access a =>
    rw [step_access he hr]
    by_cases ha : a = cmdWrite a.wdata
    · have hw : decode a.wdata ≠ .command .init := fun h => hinit ⟨a.wdata, congrArg _ ha, h⟩
      rw [ha]
      exact cmdWrite_folded hw hd
    · rw [eventBytes_of_ne_cmdWrite ha]
      exact noCommand_folded ha _
  | build picks =>
    rw [step_build he, builderTurn_ready (by exact hd)]
    exact ⟨_, rfl, rfl, rfl, rfl, rfl, rfl⟩
  | assertReset => exact hreset.elim
  | releaseReset => exact hreset.elim

/-- The run through all events folds all their bytes, in order. -/
theorem run_folded {es : List Event} {s : State} (he : s.events = es) (hd : s.ready = true) (hr : s.rstN = true)
    (hes : ∀ e ∈ es, e.noReset ∧ ¬e.issues .init) :
    ∃ t, run es.length s = .next t ∧ Folded (es.flatMap eventBytes) (s.setEvents []) t := by
  induction es generalizing s with
  | nil => exact ⟨s, rfl, rfl, rfl, rfl, rfl, he⟩
  | cons e rest ih =>
    obtain ⟨⟨hreset, hinit⟩, hrest⟩ := List.forall_mem_cons.1 hes
    obtain ⟨t, hstep, ht⟩ := step_folded he hd hr hreset hinit
    obtain ⟨u, hrun, hu⟩ := ih ht.events (ht.ready.trans hd) (ht.rstN.trans hr) hrest
    exact ⟨u, (run_succ hstep).trans hrun, (ht.setEvents []).trans hu⟩

/-- Settles O50: every event folds the bytes it presents, by induction on the events. -/
theorem registerFoldsTheBytesPresented : Obligations.RegisterFoldsTheBytesPresented := by
  unfold Obligations.RegisterFoldsTheBytesPresented
  intro s hd hr hes
  obtain ⟨t, hrun, ht⟩ := run_folded rfl hd hr hes
  exact ⟨t, hrun, ht.events, ht.reg⟩

end Sys2Proof.Machine
end

section
/-! The error conditions (60_exceptions.md R160, R161): the write that raises each, and that no step raises either bit in
another way. -/

namespace Sys2Proof.Machine

/-- UPD1, UPD2 and UPD3 need the table, and no other command does (R123). -/
theorem needsTable_iff (i : Instr) : needsTable i = true ↔
    (∃ b0, i = .upd1 b0) ∨ (∃ b0 b1, i = .upd2 b0 b1) ∨ ∃ b0 b1 b2, i = .upd3 b0 b1 b2 := by
  constructor
  · intro h
    cases i with
    | nop | init | clrerr | upd0 => cases h
    | upd1 b0 => exact .inl ⟨b0, rfl⟩
    | upd2 b0 b1 => exact .inr (.inl ⟨b0, b1, rfl⟩)
    | upd3 b0 b1 b2 => exact .inr (.inr ⟨b0, b1, b2, rfl⟩)
  · rintro (⟨_, rfl⟩ | ⟨_, _, rfl⟩ | ⟨_, _, _, rfl⟩) <;> rfl

/-- The step of a command word written to CMD: it runs `ExecCmd`, the access answered OKAY beforehand. -/
theorem step_cmdWrite {s : State} {w : Word} {rest : List Event} (hr : s.rstN = true)
    (he : s.events = .access (cmdWrite w) :: rest) :
    step s = execCmd w ((s.setEvents rest).respond writeResponse) := by
  rw [step_access he hr, hostAccess_cmdWrite]

/-- What may become of the two sticky bits from `s` to `t`, `ev` being the event taken, if any: both stay; both are cleared,
by reset or CLRERR (R167); or one of them is set by its own cause and the other stays (R160, R161). -/
def ErrorBitsMove (ev : Option Event) (s t : State) : Prop :=
  (t.errIllegal = s.errIllegal ∧ t.errNotReady = s.errNotReady) ∨
    (∃ e ∈ ev, (e = .assertReset ∨ e.issues .clrerr) ∧ t.errIllegal = false ∧ t.errNotReady = false) ∨
    (∃ e ∈ ev, e.issuesIllegal ∧ t.errIllegal = true ∧ t.errNotReady = s.errNotReady) ∨
    ∃ e ∈ ev, (∃ i, needsTable i = true ∧ e.issues i) ∧ s.ready = false ∧
      t.errIllegal = s.errIllegal ∧ t.errNotReady = true

theorem ErrorBitsMove.of_kept {ev : Option Event} {s t : State} (hi : t.errIllegal = s.errIllegal)
    (hn : t.errNotReady = s.errNotReady) : ErrorBitsMove ev s t :=
  .inl ⟨hi, hn⟩

theorem builderTurn_errorBitsMove (picks : List Byte) (s : State) (ev : Option Event) :
    ErrorBitsMove ev s (builderTurn picks s) := by
  obtain ⟨t, rfl, e, -⟩ := builderTurn_frame picks s
  exact .of_kept (congrArg State.errIllegal e :) (congrArg State.errNotReady e :)

/-- A word written to CMD raises IllegalCommand if it is ILLEGAL; a command clears both bits (CLRERR), raises NotReady (an
update at READY = 0), or leaves them. -/
theorem execCmd_errorBitsMove {w : Word} {s t : State} (h : execCmd w s = .next t) :
    ErrorBitsMove (some (.access (cmdWrite w))) s t := by
  cases hd : decode w with
  | illegal why =>
    rw [execCmd_illegal hd] at h
    cases h
    exact .inr (.inr (.inl ⟨_, rfl, ⟨w, why, rfl, hd⟩, rfl, rfl⟩))
  | command i =>
    rw [execCmd_command hd] at h
    rcases exec_cases h with ⟨v, _, e⟩ | ⟨rfl, e⟩ | ⟨hn, hr, e⟩ | ⟨_, e⟩ <;> cases e
    · exact .of_kept rfl rfl
    · exact .inr (.inl ⟨_, rfl, .inr ⟨w, rfl, hd⟩, rfl, rfl⟩)
    · exact .inr (.inr (.inr ⟨_, rfl, ⟨i, hn, w, rfl, hd⟩, hr, rfl, rfl⟩))
    · exact .of_kept rfl rfl

/-- Of the accesses only a write to CMD touches the bits; a misshapen access, a BusError, leaves them (R162). -/
theorem hostAccess_errorBitsMove {a : Access} {s t : State} (h : hostAccess a s = .next t) :
    ErrorBitsMove (some (.access a)) s t := by
  rcases hostAccess_cases a s with ⟨_, e⟩ | ⟨_, _, e⟩ | ⟨ha, e⟩ | ⟨_, _, _, e⟩ | ⟨_, _, _, e⟩ | ⟨_, _, e⟩ <;>
    rw [e] at h
  case inr.inr.inl =>
    rw [ha]
    exact (execCmd_errorBitsMove h :)
  all_goals
    cases h
    exact .of_kept rfl rfl

/-- Everything a step can do to the sticky bits. -/
theorem step_errorBitsMove {s t : State} (h : step s = .next t) : ErrorBitsMove s.events.head? s t := by
  cases he : s.events with
  | nil =>
    rw [step_nil he] at h
    cases h
    exact builderTurn_errorBitsMove allEntries s _
  | cons e rest =>
    cases e with
    | access a =>
      cases hr : s.rstN with
      | true =>
        rw [step_access he hr] at h
        exact (hostAccess_errorBitsMove h :)
      | false =>
        rw [step_access_held he hr] at h
        cases h
    | build picks =>
      rw [step_build he] at h
      cases h
      exact builderTurn_errorBitsMove picks (s.setEvents rest) _
    | assertReset =>
      rw [step_assertReset he] at h
      cases h
      exact .inr (.inl ⟨_, rfl, .inl rfl, rfl, rfl⟩)
    | releaseReset =>
      rw [step_releaseReset he] at h
      cases h
      exact .of_kept rfl rfl

/-- Settles O43: the write runs `execCmd` on an ILLEGAL word, and of the moves of the sticky bits only IllegalCommand's
takes ERR_ILLEGAL from 0 to 1. -/
theorem illegalCommandSetsOnlyItsBit : Obligations.IllegalCommandSetsOnlyItsBit := by
  unfold Obligations.IllegalCommandSetsOnlyItsBit
  refine ⟨fun s w why rest hr he hd => ?_, fun s t h h0 h1 => ?_⟩
  · rw [step_cmdWrite hr he, execCmd_illegal hd]
    rfl
  · rcases step_errorBitsMove h with ⟨hi, _⟩ | ⟨_, _, _, hi, _⟩ | ⟨e, he, hcause, _, _⟩ | ⟨_, _, _, _, hi, _⟩
    case inr.inr.inl => exact ⟨e, he, hcause⟩
    all_goals simp [h0, h1] at hi

/-- Settles O44: the write runs an update at READY = 0, and of the moves of the sticky bits only NotReady's takes
ERR_NOTREADY from 0 to 1. -/
theorem notReadySetsOnlyItsBit : Obligations.NotReadySetsOnlyItsBit := by
  unfold Obligations.NotReadySetsOnlyItsBit
  refine ⟨fun s w i rest hr he hd hneeds hnr => ?_, fun s t h h0 h1 => ?_, needsTable_iff⟩
  · rw [step_cmdWrite hr he, execCmd_command hd, exec_update_notReady hneeds (by exact hnr)]
    rfl
  · rcases step_errorBitsMove h with ⟨_, hn⟩ | ⟨_, _, _, _, hn⟩ | ⟨_, _, _, _, hn⟩ | ⟨e, he, hcause, hnr, _, _⟩
    case inr.inr.inr => exact ⟨hnr, e, he, hcause⟩
    all_goals simp [h0, h1] at hn

end Sys2Proof.Machine
end

section
/-! What one step can do, said once: the parts of the state that a command, a word written to CMD and a host access leave
alone, the five kinds of step, and the only reason for which there is none. -/

namespace Sys2Proof.Machine

/-! Frames: a command touches REG and the error bits, a host access never TABLE, BUILD, READY, rst_n or the events. -/

theorem exec_frame {i : Instr} {s t : State} (h : exec i s = .next t) :
    t = { s with reg := t.reg, errIllegal := t.errIllegal, errNotReady := t.errNotReady } := by
  rcases exec_cases h with ⟨v, _, e⟩ | ⟨_, e⟩ | ⟨_, _, e⟩ | ⟨_, e⟩ <;> cases e <;> rfl

theorem execCmd_frame {w : Word} {s t : State} (h : execCmd w s = .next t) :
    t = { s with reg := t.reg, errIllegal := t.errIllegal, errNotReady := t.errNotReady } := by
  cases hd : decode w with
  | command i => exact exec_frame ((execCmd_command hd s).symm.trans h)
  | illegal why =>
    cases (execCmd_illegal hd s).symm.trans h
    rfl

theorem hostAccess_frame {a : Access} {s t : State} (h : hostAccess a s = .next t) :
    t = { s with
      reg := t.reg, seed := t.seed, tblIndex := t.tblIndex, errIllegal := t.errIllegal
      errNotReady := t.errNotReady, lastResponse := t.lastResponse } := by
  rcases hostAccess_cases a s with ⟨_, e⟩ | ⟨_, _, e⟩ | ⟨_, e⟩ | ⟨_, _, _, e⟩ | ⟨_, _, _, e⟩ | ⟨_, _, e⟩ <;>
    rw [e] at h
  case inr.inr.inl =>
    rw [execCmd_frame h]
    rfl
  all_goals
    cases h
    rfl

/-- The five kinds of step: the idle builder's, a host access with rst_n released, the builder's turn, and the two edges of
rst_n. -/
theorem step_cases {s t : State} (h : step s = .next t) :
    (s.events = [] ∧ t = builderTurn allEntries s) ∨
      (∃ a rest, s.events = .access a :: rest ∧ s.rstN = true ∧ hostAccess a (s.setEvents rest) = .next t) ∨
      (∃ picks rest, s.events = .build picks :: rest ∧ t = builderTurn picks (s.setEvents rest)) ∨
      (∃ rest, s.events = .assertReset :: rest ∧ t = (s.setEvents rest).assertReset) ∨
      ∃ rest, s.events = .releaseReset :: rest ∧ t = (s.setEvents rest).releaseReset := by
  cases he : s.events with
  | nil =>
    cases (step_nil he).symm.trans h
    exact .inl ⟨rfl, rfl⟩
  | cons e rest =>
    cases e with
    | access a =>
      cases hr : s.rstN with
      | true => exact .inr (.inl ⟨a, rest, rfl, rfl, (step_access he hr).symm.trans h⟩)
      | false => cases (step_access_held he hr).symm.trans h
    | build picks =>
      cases (step_build he).symm.trans h
      exact .inr (.inr (.inl ⟨picks, rest, rfl, rfl⟩))
    | assertReset =>
      cases (step_assertReset he).symm.trans h
      exact .inr (.inr (.inr (.inl ⟨rest, rfl, rfl⟩)))
    | releaseReset =>
      cases (step_releaseReset he).symm.trans h
      exact .inr (.inr (.inr (.inr ⟨rest, rfl, rfl⟩)))

/-- Settles O4: a host access completes, and the builder's turn and the edges of rst_n always have a next state, so only the
refusal of an access during reset is left. -/
theorem stepStopsOnlyAtAccessDuringReset : Obligations.StepStopsOnlyAtAccessDuringReset := by
  unfold Obligations.StepStopsOnlyAtAccessDuringReset
  intro s
  cases he : s.events with
  | nil => exact .inl ⟨_, step_nil he⟩
  | cons e rest =>
    cases e with
    | access a =>
      cases hr : s.rstN with
      | true =>
        obtain ⟨t, ht, -⟩ := hostAccess_completes a (s.setEvents rest)
        exact .inl ⟨t, (step_access he hr).trans ht⟩
      | false => exact .inr ⟨rfl, ⟨a, rest, rfl⟩, step_access_held he hr⟩
    | build picks => exact .inl ⟨_, step_build he⟩
    | assertReset => exact .inl ⟨_, step_assertReset he⟩
    | releaseReset => exact .inl ⟨_, step_releaseReset he⟩

/-- Settles O3: `perform` gives an access no step at rst_n low. -/
theorem noHostStepDuringReset : Obligations.NoHostStepDuringReset := by
  unfold Obligations.NoHostStepDuringReset
  exact fun s a rest hr he => step_access_held he hr

/-- Settles O2: each clause is the step's own lemma for the event, at rst_n low the builder's turn doing nothing. -/
theorem assertedResetRestoresAndHolds : Obligations.AssertedResetRestoresAndHolds := by
  unfold Obligations.AssertedResetRestoresAndHolds
  refine ⟨fun s rest he => ?_, fun s picks rest hr he => ?_, fun s hr he => ?_, fun s rest he => ?_⟩
  · exact ⟨_, step_assertReset he, rfl, rfl, rfl, rfl, rfl, rfl, entryAt_reset_build, rfl, rfl⟩
  · rw [step_build he, builderTurn_held (by exact hr)]
    rfl
  · rw [step_nil he, builderTurn_held hr]
  · exact step_releaseReset he

/-- Settles O34: `exec_cases` names a next state for every command. -/
theorem everyCommandCompletes : Obligations.EveryCommandCompletes := by
  unfold Obligations.EveryCommandCompletes
  intro i s
  obtain ⟨t, ht, -⟩ := exec_keeps_lastResponse i s
  exact ⟨t, ht⟩

end Sys2Proof.Machine
end

section
/-! The invariant (10_state.md R28, R29; 40_table_generator.md R103): it holds at reset, and every step keeps it. -/

namespace Sys2Proof.Machine

/-- What is left to happen plays no part in the invariant. -/
theorem State.Inv.setEvents {s : State} (h : s.Inv) (es : List Event) : (s.setEvents es).Inv := by
  obtain ⟨holdT, whenBuilt, held⟩ := h
  refine ⟨holdT, whenBuilt, fun hr => ?_⟩
  conv_lhs => rw [held hr]
  rfl

/-- With rst_n released, the invariant speaks of READY, TABLE and BUILD alone. -/
theorem State.Inv.of_same_build {s t : State} (h : s.Inv) (hr : t.rstN = true) (hready : t.ready = s.ready)
    (htable : t.table = s.table) (hbuild : t.build = s.build) : t.Inv := by
  obtain ⟨holdT, whenBuilt, -⟩ := h
  refine ⟨?_, ?_, fun hlow => absurd (hr.symm.trans hlow) (by decide)⟩
  · rw [State.builtEntriesHoldT, htable, hbuild]
    exact holdT
  · rw [State.readyWhenBuilt, hready, hbuild]
    exact whenBuilt

/-- Asserting reset gives the invariant from any state: no entry is written, and every element has its reset value. -/
theorem assertReset_inv (s : State) : s.assertReset.Inv := by
  have unwritten (i : Byte) : entryAt s.assertReset.build i = false := entryAt_reset_build i
  refine ⟨fun i hi => ?_, ⟨fun h => absurd h Bool.false_ne_true, fun h => ?_⟩, fun _ => rfl⟩
  · exact absurd ((unwritten i).symm.trans hi) (by decide)
  · exact absurd ((unwritten 0#8).symm.trans (h 0#8)) (by decide)

/-- Settles O5: right after reset is a reset released again. -/
theorem resetMeetsInvariant : Obligations.ResetMeetsInvariant := by
  unfold Obligations.ResetMeetsInvariant
  exact (assertReset_inv State.reset).of_same_build rfl rfl rfl rfl

/-- Settles O7: a written entry holds T, and at READY = 1 all are written. -/
theorem readyTableIsT : Obligations.ReadyTableIsT := by
  unfold Obligations.ReadyTableIsT
  exact fun s hi h i => entryAt_table_of_ready hi h i

/-- The builder writes T where it writes, and sets READY with the last entry. -/
theorem builderTurn_inv {s : State} (h : s.Inv) (picks : List Byte) : (builderTurn picks s).Inv := by
  cases hr : s.rstN with
  | false => rwa [builderTurn_held hr]
  | true =>
    cases hd : s.ready with
    | true => rwa [builderTurn_ready hd]
    | false =>
      obtain ⟨holdT, -, -⟩ := h
      obtain ⟨t, ht, e, hent, hready⟩ := builderStep_notReady (picks := picks) hd
      rw [builderTurn_released hr, ht]
      refine ⟨fun i hi => ?_, hready, fun hlow => ?_⟩
      · obtain ⟨hb, hv⟩ := hent i
        rw [hv]
        cases hs : entryAt s.build i with
        | true => exact (if_neg (by simp)).trans (holdT i hs)
        | false =>
          have hpick : i ∈ picks := by simpa [hs, hi] using hb
          exact if_pos ⟨hpick, rfl⟩
      · rw [e] at hlow
        exact absurd (hr.symm.trans hlow) (by decide)

theorem hostAccess_inv {a : Access} {s t : State} (h : s.Inv) (hr : s.rstN = true) (ha : hostAccess a s = .next t) :
    t.Inv := by
  have frame := hostAccess_frame ha
  exact h.of_same_build ((congrArg State.rstN frame :).trans hr) (congrArg State.ready frame :)
    (congrArg State.table frame :) (congrArg State.build frame :)

/-- Settles O6: the builder keeps the invariant, an access touches none of its elements, asserting reset gives it from any
state, and releasing reset leaves it, no state being held any more. -/
theorem everyStepKeepsInvariant : Obligations.EveryStepKeepsInvariant := by
  unfold Obligations.EveryStepKeepsInvariant
  intro s t hi h
  rcases step_cases h with ⟨_, rfl⟩ | ⟨a, rest, _, hr, ha⟩ | ⟨picks, rest, _, rfl⟩ | ⟨rest, _, rfl⟩ | ⟨rest, _, rfl⟩
  · exact builderTurn_inv hi allEntries
  · exact hostAccess_inv (hi.setEvents rest) hr ha
  · exact builderTurn_inv (hi.setEvents rest) picks
  · exact assertReset_inv _
  · exact hi.of_same_build rfl rfl rfl rfl

end Sys2Proof.Machine
end

section
/-! What a command leaves unchanged and what it may read (41_accumulator.md R123 to R130; 60_exceptions.md R167). -/

namespace Sys2Proof.Machine

/-- Settles O35: of the moves of a command, only INIT's and a running update's touch REG, only CLRERR's and a refused
update's touch the error bits. -/
theorem commandFrame : Obligations.CommandFrame := by
  unfold Obligations.CommandFrame
  intro i s t h
  refine ⟨exec_frame h, ?_⟩
  rcases exec_cases h with ⟨v, hcause, e⟩ | ⟨rfl, e⟩ | ⟨hn, hr, e⟩ | ⟨_, e⟩ <;> cases e
  · exact ⟨fun hinit hrun => absurd hcause (not_or.2 ⟨hinit, hrun⟩), fun _ => rfl, fun _ _ => rfl⟩
  · exact ⟨fun _ _ => rfl, fun hne => absurd rfl hne, fun hne _ => absurd rfl hne⟩
  · exact ⟨fun _ _ => rfl, fun _ => rfl, fun _ hrefused => absurd ⟨hn, hr⟩ hrefused⟩
  · exact ⟨fun _ _ => rfl, fun _ => rfl, fun _ _ => rfl⟩

/-- Two states related before each of the three writes a command can make are related after it. -/
structure KeptByCommands (R : State → State → Prop) : Prop where
  setReg : ∀ {s t : State} (v : Word), R s t → R (s.setReg v) (t.setReg v)
  clearErrors : ∀ {s t : State}, R s t → R s.clearErrors t.clearErrors
  setErrNotReady : ∀ {s t : State}, R s t → R (s.setErrNotReady true) (t.setErrNotReady true)

/-- The elements that a command reads in `s` are the same in `t`: READY, REG, SEED for INIT, TABLE for an update that READY
lets run. -/
structure SameOperands (i : Instr) (s t : State) : Prop where
  ready : t.ready = s.ready
  reg : t.reg = s.reg
  seed : i = .init → t.seed = s.seed
  table : needsTable i = true → s.ready = true → t.table = s.table

/-- A command does the same to two states that agree on what it reads. -/
theorem exec_related {R : State → State → Prop} (hR : KeptByCommands R) {i : Instr} {s s' t : State} (h : R s s')
    (same : SameOperands i s s') (ht : exec i s = .next t) : ∃ t', exec i s' = .next t' ∧ R t t' := by
  have update (hn : needsTable i = true) : ∃ t', exec i s' = .next t' ∧ R t t' := by
    cases hr : s.ready with
    | true =>
      cases (exec_update_ready hn hr).symm.trans ht
      rw [exec_update_ready hn (same.ready.trans hr), same.reg, same.table hn hr]
      exact ⟨_, rfl, hR.setReg _ h⟩
    | false =>
      cases (exec_update_notReady hn hr).symm.trans ht
      exact ⟨_, exec_update_notReady hn (same.ready.trans hr), hR.setErrNotReady h⟩
  cases i with
  | nop | upd0 =>
    cases ht
    exact ⟨s', rfl, h⟩
  | init =>
    cases ht
    rw [exec_init, same.seed rfl]
    exact ⟨_, rfl, hR.setReg _ h⟩
  | clrerr =>
    cases ht
    exact ⟨_, rfl, hR.clearErrors h⟩
  | upd1 | upd2 | upd3 => exact update rfl

/-- The same for an element replaced by a function of the state that commutes with the writes of a command. -/
theorem exec_commutes {f : State → State} (hf : KeptByCommands fun s s' => s' = f s) {i : Instr} {s t : State}
    (same : SameOperands i s (f s)) (ht : exec i s = .next t) : exec i (f s) = .next (f t) := by
  obtain ⟨t', ht', rfl⟩ := exec_related hf rfl same ht
  exact ht'

theorem setSeed_keptByCommands (v : Word) : KeptByCommands fun s s' => s' = s.setSeed v where
  setReg _ h := by rw [h]; rfl
  clearErrors h := by rw [h]; rfl
  setErrNotReady h := by rw [h]; rfl

theorem setTblIndex_keptByCommands (x : Byte) : KeptByCommands fun s s' => s' = s.setTblIndex x where
  setReg _ h := by rw [h]; rfl
  clearErrors h := by rw [h]; rfl
  setErrNotReady h := by rw [h]; rfl

theorem setTable_keptByCommands (u : Vector Word 256) : KeptByCommands fun s s' => s' = { s with table := u } where
  setReg _ h := by rw [h]; rfl
  clearErrors h := by rw [h]; rfl
  setErrNotReady h := by rw [h]; rfl

theorem sameButErrIllegal_keptByCommands :
    KeptByCommands fun s s' => s' = { s with errIllegal := s'.errIllegal } where
  setReg _ h := by rw [h]; rfl
  clearErrors h := by rw [h]; rfl
  setErrNotReady h := by rw [h]; rfl

theorem sameButErrNotReady_keptByCommands :
    KeptByCommands fun s s' => s' = { s with errNotReady := s'.errNotReady } where
  setReg _ h := by rw [h]; rfl
  clearErrors h := by rw [h]; rfl
  setErrNotReady h := by rw [h]; rfl

/-- Settles O36: each change leaves what the command reads, and the writes of a command keep it as it is. -/
theorem commandsReadOnlyTheirOperands : Obligations.CommandsReadOnlyTheirOperands := by
  unfold Obligations.CommandsReadOnlyTheirOperands
  refine ⟨fun i s t v hi h => ?_, fun i s t x h => ?_, fun i s t u hu h => ?_, fun i s t b h => ?_, fun i s t b h => ?_⟩
  · exact exec_commutes (setSeed_keptByCommands v) ⟨rfl, rfl, fun e => absurd e hi, fun _ _ => rfl⟩ h
  · exact exec_commutes (setTblIndex_keptByCommands x) ⟨rfl, rfl, fun _ => rfl, fun _ _ => rfl⟩ h
  · refine exec_commutes (setTable_keptByCommands u) ⟨rfl, rfl, fun _ => rfl, fun hn hr => ?_⟩ h
    simp [hn, hr] at hu
  · exact exec_related sameButErrIllegal_keptByCommands rfl ⟨rfl, rfl, fun _ => rfl, fun _ _ => rfl⟩ h
  · exact exec_related sameButErrNotReady_keptByCommands rfl ⟨rfl, rfl, fun _ => rfl, fun _ _ => rfl⟩ h

end Sys2Proof.Machine
end

section
/-! The entries of TABLE that are not written yet are not observable (10_state.md R28; 93_implementation_defined.md X1). At
READY = 1 there are none; at READY = 0 nothing reads TABLE, and the builder writes the same entries over either table. -/

namespace Sys2Proof.Machine

theorem sameButUnwritten_refl (s : State) : s.sameButUnwritten s := ⟨rfl, fun _ _ => rfl⟩

/-- With every entry written the two states are the same. -/
theorem State.sameButUnwritten.eq_of_ready {s t : State} (h : s.sameButUnwritten t) (hb : s.readyWhenBuilt)
    (hr : s.ready = true) : t = s := by
  obtain ⟨e, same⟩ := h
  have htable : t.table = s.table := table_ext fun i => same i (hb.1 hr i)
  rw [e, htable]

/-- Over two states that differ only in unwritten entries the builder's turn leaves two that again do. -/
theorem State.sameButUnwritten.builderTurn {s t : State} (h : s.sameButUnwritten t) (hd : s.ready = false)
    (picks : List Byte) : (builderTurn picks s).sameButUnwritten (builderTurn picks t) := by
  obtain ⟨e, same⟩ := h
  have hrst : t.rstN = s.rstN := (congrArg State.rstN e :)
  have hready : t.ready = s.ready := (congrArg State.ready e :)
  have hbuild : t.build = s.build := (congrArg State.build e :)
  cases hr : s.rstN with
  | false =>
    rw [builderTurn_held hr, builderTurn_held (hrst.trans hr)]
    exact ⟨e, same⟩
  | true =>
    rw [builderTurn_released hr, builderTurn_released (hrst.trans hr)]
    obtain ⟨u, hu, eu, hent, hdone⟩ := builderStep_notReady (picks := picks) hd
    obtain ⟨u', hu', eu', hent', hdone'⟩ := builderStep_notReady (picks := picks) (hready.trans hd)
    rw [hu, hu']
    have hb : u'.build = u.build := table_ext fun i => by
      obtain ⟨hi, -⟩ := hent i
      obtain ⟨hi', -⟩ := hent' i
      rw [hi, hi', hbuild]
    have hrd : u'.ready = u.ready := by rw [Bool.eq_iff_iff, hdone, hdone', hb]
    refine ⟨?_, fun i hi => ?_⟩
    · rw [eu', hb, hrd, e, eu]
    · obtain ⟨hbi, hti⟩ := hent i
      obtain ⟨-, hti'⟩ := hent' i
      rw [hti, hti', hbuild]
      cases hs : entryAt s.build i with
      | true => simpa using same i hs
      | false =>
        have hpick : i ∈ picks := by simpa [hs, hi] using hbi
        simp [hpick]

/-- At READY = 0 no register shows TABLE. -/
theorem regRead_setTable {s : State} (hd : s.ready = false) (u : Vector Word 256) (off : Offset) :
    regRead { s with table := u } off = regRead s off := by
  cases hreg : regAt off with
  | none => rw [regRead_reserved _ hreg, regRead_reserved _ hreg]
  | some r =>
    obtain rfl := regAt_eq_some hreg
    rw [regRead_regOffset, regRead_regOffset]
    cases r with
    | tblData => rw [readReg, readReg, tblRead_notReady hd, tblRead_notReady (by exact hd)]
    | poly | status | cmd | seed | state | digest | tblIndex => rfl

/-- At READY = 0 no command reads TABLE. -/
theorem execCmd_setTable {w : Word} {s t : State} (hd : s.ready = false) (u : Vector Word 256)
    (h : execCmd w s = .next t) : execCmd w { s with table := u } = .next { t with table := u } := by
  cases hw : decode w with
  | command i =>
    rw [execCmd_command hw] at h ⊢
    refine exec_commutes (setTable_keptByCommands u) ⟨rfl, rfl, fun _ => rfl, fun _ hr => ?_⟩ h
    exact absurd (hd.symm.trans hr) Bool.false_ne_true
  | illegal why =>
    rw [execCmd_illegal hw] at h ⊢
    cases h
    rfl

/-- At READY = 0 no host access reads TABLE. -/
theorem hostAccess_setTable {a : Access} {s t : State} (hd : s.ready = false) (u : Vector Word 256)
    (h : hostAccess a s = .next t) : hostAccess a { s with table := u } = .next { t with table := u } := by
  cases hl : accessLegal a with
  | false =>
    rw [hostAccess_misshapen hl] at h ⊢
    cases h
    rfl
  | true =>
    cases hdir : a.dir with
    | read =>
      rw [hostAccess_read hl hdir] at h ⊢
      cases h
      rw [regRead_setTable hd]
      rfl
    | write =>
      rw [hostAccess_write hl hdir] at h ⊢
      cases hreg : regAt a.off with
      | none =>
        rw [regWrite_reserved _ _ hreg] at h ⊢
        cases h
        rfl
      | some r =>
        rw [regAt_eq_some hreg] at h ⊢
        cases r with
        | cmd => exact execCmd_setTable (s := s.respond writeResponse) hd u h
        | seed | tblIndex | poly | status | state | digest | tblData =>
          cases h
          rfl

theorem State.sameButUnwritten.events {s t : State} (h : s.sameButUnwritten t) : t.events = s.events :=
  (congrArg State.events h.1 :)

theorem State.sameButUnwritten.rstN {s t : State} (h : s.sameButUnwritten t) : t.rstN = s.rstN :=
  (congrArg State.rstN h.1 :)

theorem State.sameButUnwritten.setEvents {s t : State} (h : s.sameButUnwritten t) (es : List Event) :
    (s.setEvents es).sameButUnwritten (t.setEvents es) := by
  obtain ⟨e, same⟩ := h
  refine ⟨?_, same⟩
  conv_lhs => rw [e]
  rfl

theorem State.sameButUnwritten.releaseReset {s t : State} (h : s.sameButUnwritten t) :
    s.releaseReset.sameButUnwritten t.releaseReset := by
  obtain ⟨e, same⟩ := h
  refine ⟨?_, same⟩
  conv_lhs => rw [e]
  rfl

/-- Asserting reset forgets TABLE. -/
theorem State.sameButUnwritten.assertReset_eq {s t : State} (h : s.sameButUnwritten t) :
    t.assertReset = s.assertReset := by
  rw [State.assertReset, h.events, State.assertReset]

/-- A host access at READY = 0 leaves TABLE and BUILD, so the difference stays where it was. -/
theorem State.sameButUnwritten.hostAccess {s t s' : State} (h : s.sameButUnwritten t) (hd : s.ready = false)
    {a : Access} (ha : hostAccess a s = .next s') : ∃ t', hostAccess a t = .next t' ∧ s'.sameButUnwritten t' := by
  obtain ⟨e, same⟩ := h
  have frame := hostAccess_frame ha
  have htable : s'.table = s.table := (congrArg State.table frame :)
  have hbuild : s'.build = s.build := (congrArg State.build frame :)
  refine ⟨{ s' with table := t.table }, ?_, rfl, fun i hi => ?_⟩
  · rw [e]
    exact hostAccess_setTable hd t.table ha
  · rw [hbuild] at hi
    rw [htable]
    exact same i hi

/-- At READY = 0 each kind of step treats the two states alike. -/
theorem step_sameButUnwritten {s t s' : State} (h : s.sameButUnwritten t) (hd : s.ready = false)
    (hs : step s = .next s') : ∃ t', step t = .next t' ∧ s'.sameButUnwritten t' := by
  rcases step_cases hs with
    ⟨he, rfl⟩ | ⟨a, rest, he, hr, ha⟩ | ⟨picks, rest, he, rfl⟩ | ⟨rest, he, rfl⟩ | ⟨rest, he, rfl⟩ <;>
    rw [← h.events] at he
  · exact ⟨_, step_nil he, h.builderTurn hd allEntries⟩
  · rw [step_access he (h.rstN.trans hr)]
    exact (h.setEvents rest).hostAccess hd ha
  · exact ⟨_, step_build he, (h.setEvents rest).builderTurn hd picks⟩
  · rw [step_assertReset he, (h.setEvents rest).assertReset_eq]
    exact ⟨_, rfl, sameButUnwritten_refl _⟩
  · exact ⟨_, step_releaseReset he, (h.setEvents rest).releaseReset⟩

/-- The one refusal, of an access during reset, does not depend on TABLE. -/
theorem step_refused_sameButUnwritten {s t : State} (h : s.sameButUnwritten t) {r : Refusal}
    (hs : step s = .refused r) : step t = .refused r := by
  rcases stepStopsOnlyAtAccessDuringReset s with ⟨u, hu⟩ | ⟨hr, ⟨a, rest, he⟩, hheld⟩
  · cases hu.symm.trans hs
  · cases hheld.symm.trans hs
    exact step_access_held (h.events.trans he) (h.rstN.trans hr)

/-- Settles O23: at READY = 1 the two states are the same state, and at READY = 0 no kind of step reads an unwritten
entry. -/
theorem unwrittenEntriesAreUnobservable : Obligations.UnwrittenEntriesAreUnobservable := by
  unfold Obligations.UnwrittenEntriesAreUnobservable
  refine fun s t hb h => ⟨fun s' hs => ?_, fun r => step_refused_sameButUnwritten h⟩
  cases hd : s.ready with
  | true =>
    rw [h.eq_of_ready hb hd]
    exact ⟨s', hs, sameButUnwritten_refl s'⟩
  | false => exact step_sameButUnwritten h hd hs

end Sys2Proof.Machine
end

section
/-! The two directions of the encoding, and the assembler (30_encoding.md R84, R87, R89). -/

namespace Sys2Proof.Machine

/-- Settles O10: `decode_encode` holds of every command. -/
theorem decodeInvertsEncode : Obligations.DecodeInvertsEncode := by
  unfold Obligations.DecodeInvertsEncode
  exact fun i _ => decode_encode i

/-- Settles O11: a word that decodes to a command has all four fields fixed. -/
theorem encodeInvertsDecode : Obligations.EncodeInvertsDecode := by
  unfold Obligations.EncodeInvertsDecode
  exact fun w i h => encode_of_decode h

/-! The words of the updates, their lanes shifted into place as R87 writes them. -/

theorem encode_upd1_eq_or (b0 : Byte) : encode (.upd1 b0) = 0x11000000#32 ||| b0.setWidth 32 := by
  rw [encode, packWord_eq_or]
  simp

theorem encode_upd2_eq_or (b0 b1 : Byte) :
    encode (.upd2 b0 b1) = 0x12000000#32 ||| b1.setWidth 32 <<< 8 ||| b0.setWidth 32 := by
  rw [encode, packWord_eq_or]
  simp

theorem encode_upd3_eq_or (b0 b1 b2 : Byte) :
    encode (.upd3 b0 b1 b2) =
      0x13000000#32 ||| b2.setWidth 32 <<< 16 ||| b1.setWidth 32 <<< 8 ||| b0.setWidth 32 := by
  rw [encode, packWord_eq_or]
  simp

/-! An operand of the assembler: at most 0xFF it is a byte, above it is an error. -/

theorem asmByte_of_le {v : Nat} (h : v ≤ 0xFF) : asmByte v = some (BitVec.ofNat 8 v) := by
  simp [asmByte, operandWellFormed, h]

theorem asmByte_of_not_le {v : Nat} (h : ¬v ≤ 0xFF) : asmByte v = none := by
  simp [asmByte, operandWellFormed, h]

/-- A byte operand keeps its value in the word. -/
theorem setWidth_ofNat_byte {v : Nat} (h : v ≤ 0xFF) : (BitVec.ofNat 8 v).setWidth 32 = BitVec.ofNat 32 v := by
  apply BitVec.eq_of_toNat_eq
  simp
  omega

theorem assemble_upd1 (b0 : Nat) : assemble (.upd1 b0) =
    if b0 ≤ 0xFF then some (0x11000000#32 ||| BitVec.ofNat 32 b0) else none := by
  by_cases h0 : b0 ≤ 0xFF
  · simp [assemble, asmInstr, asmByte_of_le h0, h0, encode_upd1_eq_or, setWidth_ofNat_byte h0]
  · simp [assemble, asmInstr, asmByte_of_not_le h0, h0]

theorem assemble_upd2 (b0 b1 : Nat) : assemble (.upd2 b0 b1) =
    if b0 ≤ 0xFF ∧ b1 ≤ 0xFF then some (0x12000000#32 ||| BitVec.ofNat 32 b1 <<< 8 ||| BitVec.ofNat 32 b0)
    else none := by
  by_cases h0 : b0 ≤ 0xFF
  · by_cases h1 : b1 ≤ 0xFF
    · simp [assemble, asmInstr, asmByte_of_le h0, asmByte_of_le h1, h0, h1, encode_upd2_eq_or, setWidth_ofNat_byte h0,
        setWidth_ofNat_byte h1]
    · simp [assemble, asmInstr, asmByte_of_not_le h1, h1]
  · simp [assemble, asmInstr, asmByte_of_not_le h0, h0]

theorem assemble_upd3 (b0 b1 b2 : Nat) : assemble (.upd3 b0 b1 b2) =
    if b0 ≤ 0xFF ∧ b1 ≤ 0xFF ∧ b2 ≤ 0xFF then
      some (0x13000000#32 ||| BitVec.ofNat 32 b2 <<< 16 ||| BitVec.ofNat 32 b1 <<< 8 ||| BitVec.ofNat 32 b0)
    else none := by
  by_cases h0 : b0 ≤ 0xFF
  · by_cases h1 : b1 ≤ 0xFF
    · by_cases h2 : b2 ≤ 0xFF
      · simp [assemble, asmInstr, asmByte_of_le h0, asmByte_of_le h1, asmByte_of_le h2, h0, h1, h2, encode_upd3_eq_or,
          setWidth_ofNat_byte h0, setWidth_ofNat_byte h1, setWidth_ofNat_byte h2]
      · simp [assemble, asmInstr, asmByte_of_not_le h2, h2]
    · simp [assemble, asmInstr, asmByte_of_not_le h1, h1]
  · simp [assemble, asmInstr, asmByte_of_not_le h0, h0]

/-- Settles O14: the commands without operands have fixed words, and each operand of an update is a byte or an error. -/
theorem assemblerWordsAndErrors : Obligations.AssemblerWordsAndErrors := by
  unfold Obligations.AssemblerWordsAndErrors
  exact ⟨rfl, rfl, rfl, rfl, assemble_upd1, assemble_upd2, assemble_upd3⟩

/-! The pseudo-instruction `upd S`. -/

theorem updCommands_dataBytes (bytes : List Byte) : (updCommands bytes).flatMap dataBytes = bytes := by
  induction bytes using updCommands.induct with
  | case1 | case2 | case3 => rfl
  | case4 b0 b1 b2 rest ih => simp [updCommands, dataBytes, ih]

theorem updCommands_needsTable (bytes : List Byte) : ∀ i ∈ updCommands bytes, needsTable i = true := by
  induction bytes using updCommands.induct with
  | case1 | case2 | case3 => simp [updCommands, needsTable]
  | case4 b0 b1 b2 rest ih => simpa [updCommands, needsTable] using ih

/-- Settles O15: by induction along `updCommands`, three bytes at a time. -/
theorem updSendsItsBytesInOrder : Obligations.UpdSendsItsBytesInOrder := by
  unfold Obligations.UpdSendsItsBytesInOrder
  exact fun bytes => ⟨updCommands_dataBytes bytes, updCommands_needsTable bytes⟩

end Sys2Proof.Machine
end

section
/-! Registers at the port: which command a written word runs, what is read back, that reads change nothing, and which error
an access raises (20_memory.md R55; 41_accumulator.md R123, R131; 60_exceptions.md R165). -/

namespace Sys2Proof.Machine

/-- A table word is a command exactly when its 32-bit word decodes to one. -/
theorem decodeTableWord_eq_some {nbits w : Nat} {i : Instr} (h : decodeTableWord nbits w = some i) :
    decode (tableWord nbits w) = .command i := by
  rw [decodeTableWord] at h
  cases hd : decode (tableWord nbits w) <;> rw [hd] at h <;> cases h
  rfl

/-- The step of a decoded command written to CMD. -/
theorem step_cmdWrite_command {s : State} {w : Word} {i : Instr} {rest : List Event} (hr : s.rstN = true)
    (he : s.events = .access (cmdWrite w) :: rest) (hd : decode w = .command i) :
    step s = exec i ((s.setEvents rest).respond writeResponse) := by
  rw [step_cmdWrite hr he, execCmd_command hd]

/-- Settles O37: the legal write reaches `exec`, and `withFetchWord` puts such a write before the events with rst_n
released. -/
theorem stepRunsTheDecodedCommand : Obligations.StepRunsTheDecodedCommand := by
  unfold Obligations.StepRunsTheDecodedCommand
  refine ⟨fun s w i rest hr he hd _ => step_cmdWrite_command hr he hd, fun s nbits w i h => ?_⟩
  exact step_cmdWrite_command (s := s.withFetchWord nbits w) rfl rfl (decodeTableWord_eq_some h)

/-- The low byte, zero-extended, is `& 0xFF`. -/
theorem zext_lowByte (v : Word) : zext (lowByte v) = v &&& 0xFF#32 := by
  have low : v.toNat &&& 0xFF = v.toNat % 256 := Nat.and_two_pow_sub_one_eq_mod v.toNat 8
  apply BitVec.eq_of_toNat_eq
  simp [zext, lowByte, low]
  omega

/-- Settles O41: the write sets its register and nothing else, and the read answers what the register holds. -/
theorem writtenRegistersReadBack : Obligations.WrittenRegistersReadBack := by
  unfold Obligations.WrittenRegistersReadBack
  refine ⟨fun s v rest hr he => ?_, fun s v rest hr he => ?_⟩
  · have hwrite := (step_wrLine hr he).trans (regWrite_seed v _)
    exact run_two hwrite (step_rdLine (r := .seed) (lines := []) (rest := rest) hr rfl)
  · have hwrite := (step_wrLine hr he).trans (regWrite_tblIndex v _)
    rw [run_two hwrite (step_rdLine (r := .tblIndex) (lines := []) (rest := rest) hr rfl), ← zext_lowByte]
    rfl

/-- What a read answers: a misshapen one is a BusError. -/
def readAnswer (a : Access) (s : State) : Response :=
  if accessLegal a then readResponse (regRead s a.off) else busErrorResponse

theorem hostAccess_of_read {a : Access} (hdir : a.dir = .read) (s : State) :
    hostAccess a s = .next (s.respond (readAnswer a s)) := by
  cases hl : accessLegal a with
  | false => rw [hostAccess_misshapen hl, readAnswer, if_neg (by simp [hl])]
  | true => rw [hostAccess_read hl hdir, readAnswer, if_pos hl]

/-- No read shows what was answered last or what is left to happen. -/
theorem readAnswer_respond_setEvents (a : Access) (s : State) (es : List Event) (r : Response) :
    readAnswer a ((s.respond r).setEvents es) = readAnswer a s := by
  have hread : regRead ((s.respond r).setEvents es) a.off = regRead s a.off := by
    unfold regRead
    split
    · next q _ => cases q <;> rfl
    · rfl
  rw [readAnswer, hread, readAnswer]

theorem step_read {s : State} {a : Access} {rest : List Event} (hr : s.rstN = true) (hdir : a.dir = .read)
    (he : s.events = .access a :: rest) :
    step s = .next ((s.setEvents rest).respond (readAnswer a (s.setEvents rest))) := by
  rw [step_access he hr, hostAccess_of_read hdir]

/-- Settles O42: a read only leaves its answer, which the next read does not show; DIGEST is the complement of STATE. -/
theorem readsHaveNoSideEffect : Obligations.ReadsHaveNoSideEffect := by
  unfold Obligations.ReadsHaveNoSideEffect
  refine ⟨fun s a rest hr hdir he => ⟨_, step_read hr hdir he⟩, fun s t u a rest hr hdir he hs ht => ?_, fun s => ?_⟩
  · rw [step_read hr hdir he] at hs
    cases hs
    rw [step_read (by exact hr) hdir rfl] at ht
    cases ht
    exact congrArg some (readAnswer_respond_setEvents a _ rest _)
  · have hstate : readReg s .state = s.reg := rfl
    rw [readReg_digest, hstate, ← BitVec.allOnes_xor, BitVec.xor_assoc, BitVec.xor_self]
    rfl

/-- Settles O45: of the three clauses the first is a BusError at the port, the second an ILLEGAL word in `ExecCmd`, the
third an update in `exec`; each sets what its own condition sets. -/
theorem errorPriority : Obligations.ErrorPriority := by
  unfold Obligations.ErrorPriority
  refine ⟨fun s a rest hr he hshape => ?_, fun s w why rest hr he hd => ?_, fun s w i rest hr he hd hn hnr => ?_⟩
  · exact ⟨_, accessShapeDecidesTheResponse.1 s a rest hr he hshape, rfl, rfl, rfl⟩
  · exact ⟨_, illegalCommandSetsOnlyItsBit.1 s w why rest hr he hd, rfl, rfl, rfl⟩
  · exact ⟨_, notReadySetsOnlyItsBit.1 s w i rest hr he hd hn hnr, rfl, rfl, rfl⟩

end Sys2Proof.Machine
end

section
/-! The builder (40_table_generator.md R103 to R105): its step entry by entry, the idle machine's, and that READY, once
set, stays until reset. -/

namespace Sys2Proof.Machine

/-- Settles O18: `builderStep_notReady` after the event is taken; at READY = 1 there is no step. -/
theorem builderStepWritesPickedEntries : Obligations.BuilderStepWritesPickedEntries := by
  unfold Obligations.BuilderStepWritesPickedEntries
  refine ⟨fun s picks rest hr hd he => ?_, fun s picks rest hd he => ?_⟩
  · obtain ⟨t, ht, frame, hent, hready⟩ := builderStep_notReady (s := s.setEvents rest) (picks := picks) hd
    refine ⟨t, ?_, frame, fun i => ?_, fun i => ?_, hready⟩
    · rw [step_build he, builderTurn_released (by exact hr), ht]
    · obtain ⟨hb, -⟩ := hent i
      simp [hb]
    · obtain ⟨-, hv⟩ := hent i
      exact hv
  · rw [step_build he, builderTurn_ready (by exact hd)]
    rfl

/-- What the builder has written is T already, so finishing its work gives the finished table. -/
theorem finishBuild_of_inv {s : State} (hi : s.Inv) (hd : s.ready = false) :
    finishBuild s = { s with ready := true, table := fullTable, build := Vector.replicate 256 true } := by
  obtain ⟨holdT, -, -⟩ := hi
  have htable : (tableOf fun i => if entryAt s.build i then entryAt s.table i else tableEntry i) = fullTable := by
    refine table_ext fun i => ?_
    rw [entryAt_tableOf, entryAt_fullTable]
    split
    · next hb => exact holdT i hb
    · rfl
  rw [finishBuild, if_neg (by simp [hd]), htable]

/-- Settles O19: with no event left the builder finishes. -/
theorem idleBuilderCompletesTheTable : Obligations.IdleBuilderCompletesTheTable := by
  unfold Obligations.IdleBuilderCompletesTheTable
  intro s hi hr hd he
  rw [step_nil he, builderTurn_released hr, ← finishBuild_eq_builderStep, finishBuild_of_inv hi hd]

/-- The table built at READY = 1 stays in every step but an assertion of reset. -/
theorem step_keeps_ready_table {s t : State} (hd : s.ready = true) (hreset : s.events.head? ≠ some .assertReset)
    (h : step s = .next t) : t.ready = true ∧ t.table = s.table := by
  rcases step_cases h with
    ⟨_, rfl⟩ | ⟨a, rest, _, _, ha⟩ | ⟨picks, rest, _, rfl⟩ | ⟨rest, he, _⟩ | ⟨rest, _, rfl⟩
  · rw [builderTurn_ready hd]
    exact ⟨hd, rfl⟩
  · have frame := hostAccess_frame ha
    exact ⟨(congrArg State.ready frame :).trans hd, (congrArg State.table frame :)⟩
  · rw [builderTurn_ready (by exact hd)]
    exact ⟨hd, rfl⟩
  · exact absurd (congrArg List.head? he) hreset
  · exact ⟨hd, rfl⟩

/-- The step of an access is the access at the port, with rst_n released. -/
theorem hostAccess_of_step {s t : State} {a : Access} {rest : List Event} (he : s.events = .access a :: rest)
    (h : step s = .next t) : s.rstN = true ∧ hostAccess a (s.setEvents rest) = .next t := by
  cases hr : s.rstN with
  | true => exact ⟨rfl, (step_access he hr).symm.trans h⟩
  | false => cases (step_access_held he hr).symm.trans h

/-- Settles O21: the builder has no step at READY = 1, and an access touches none of TABLE, READY and BUILD. -/
theorem readyTableIsImmutable : Obligations.ReadyTableIsImmutable := by
  unfold Obligations.ReadyTableIsImmutable
  refine ⟨fun s t => step_keeps_ready_table, fun s t a rest he h => ?_, fun s t h hd hlow => ?_⟩
  · obtain ⟨-, ha⟩ := hostAccess_of_step he h
    have frame := hostAccess_frame ha
    exact ⟨(congrArg State.table frame :), (congrArg State.ready frame :), (congrArg State.build frame :)⟩
  · by_contra hreset
    obtain ⟨hready, -⟩ := step_keeps_ready_table hd hreset h
    exact Bool.false_ne_true (hlow.symm.trans hready)

/-! How the build goes on from state to state. -/

/-- The entries the builder has not written. -/
def State.unwritten (s : State) : Finset Byte := Finset.univ.filter fun i => entryAt s.build i = false

@[simp] theorem State.mem_unwritten {s : State} {i : Byte} : i ∈ s.unwritten ↔ entryAt s.build i = false := by
  simp [State.unwritten]

/-- From `s` to `t` the build has not lost anything: rst_n is as it was, READY has not been cleared, and no entry has
become unwritten. -/
structure BuildGoesOn (s t : State) : Prop where
  rstN : t.rstN = s.rstN
  ready : s.ready = true → t.ready = true
  unwritten : t.unwritten ⊆ s.unwritten

theorem BuildGoesOn.refl (s : State) : BuildGoesOn s s := ⟨rfl, id, subset_rfl⟩

theorem BuildGoesOn.trans {s t u : State} (h : BuildGoesOn s t) (h' : BuildGoesOn t u) : BuildGoesOn s u :=
  ⟨h'.rstN.trans h.rstN, h'.ready ∘ h.ready, h'.unwritten.trans h.unwritten⟩

theorem BuildGoesOn.of_same_build {s t : State} (hr : t.rstN = s.rstN) (hready : t.ready = s.ready)
    (hbuild : t.build = s.build) : BuildGoesOn s t :=
  ⟨hr, hready.trans, by rw [State.unwritten, hbuild, State.unwritten]⟩

theorem hostAccess_buildGoesOn {a : Access} {s t : State} (h : hostAccess a s = .next t) : BuildGoesOn s t := by
  have frame := hostAccess_frame h
  exact .of_same_build (congrArg State.rstN frame :) (congrArg State.ready frame :) (congrArg State.build frame :)

/-- BUILD after a turn of the builder at READY = 0. -/
theorem builderTurn_build {s : State} (hr : s.rstN = true) (hd : s.ready = false) (picks : List Byte) (i : Byte) :
    entryAt (builderTurn picks s).build i = (entryAt s.build i || decide (i ∈ picks)) := by
  obtain ⟨t, ht, -, hent, -⟩ := builderStep_notReady (picks := picks) hd
  obtain ⟨hb, -⟩ := hent i
  rw [builderTurn_released hr, ht, hb]

theorem builderTurn_buildGoesOn (picks : List Byte) (s : State) : BuildGoesOn s (builderTurn picks s) := by
  obtain ⟨t, ht, frame, hready⟩ := builderTurn_frame picks s
  refine ⟨?_, by rwa [ht], fun i hi => ?_⟩
  · rw [ht, frame]
  · rw [State.mem_unwritten] at hi ⊢
    cases hr : s.rstN with
    | false => rwa [builderTurn_held hr] at hi
    | true =>
      cases hd : s.ready with
      | true => rwa [builderTurn_ready hd] at hi
      | false =>
        rw [builderTurn_build hr hd] at hi
        exact (Bool.or_eq_false_iff.1 hi).1

/-- A turn that is a builder step leaves strictly fewer entries unwritten: it picks one of them (R103). -/
theorem builderTurn_unwritten_ssubset {picks : List Byte} {s : State} (h : builderMoves picks s = true) :
    (builderTurn picks s).unwritten ⊂ s.unwritten := by
  simp only [builderMoves, State.builderEnabled, Bool.and_eq_true, Bool.not_eq_true', List.any_eq_true] at h
  obtain ⟨⟨hr, hd⟩, i, hpick, hi⟩ := h
  refine (Finset.ssubset_iff_of_subset (builderTurn_buildGoesOn picks s).unwritten).2 ⟨i, ?_, ?_⟩
  · rwa [State.mem_unwritten]
  · rw [State.mem_unwritten, builderTurn_build hr hd]
    simp [hpick]

/-- Any event but an edge of rst_n completes and takes itself off, the build going on. -/
theorem step_noReset {s : State} {e : Event} {rest : List Event} (he : s.events = e :: rest) (hr : s.rstN = true)
    (hreset : e.noReset) : ∃ t, step s = .next t ∧ t.events = rest ∧ BuildGoesOn s t := by
  have taken : BuildGoesOn s (s.setEvents rest) := .of_same_build rfl rfl rfl
  cases e with
  | access a =>
    obtain ⟨t, ht, -⟩ := hostAccess_completes a (s.setEvents rest)
    exact ⟨t, (step_access he hr).trans ht, (congrArg State.events (hostAccess_frame ht) :),
      taken.trans (hostAccess_buildGoesOn ht)⟩
  | build picks =>
    obtain ⟨t, ht, frame, -⟩ := builderTurn_frame picks (s.setEvents rest)
    exact ⟨_, step_build he, by rw [ht, frame]; rfl, taken.trans (builderTurn_buildGoesOn picks _)⟩
  | assertReset => exact hreset.elim
  | releaseReset => exact hreset.elim

/-- Each event takes itself off, and with none left the builder finishes. -/
theorem run_finishes_build {es : List Event} {s : State} (he : s.events = es) (hr : s.rstN = true)
    (hes : ∀ e ∈ es, e.noReset) : ∃ t, run (es.length + 1) s = .next t ∧ t.ready = true ∧ t.events = [] := by
  induction es generalizing s with
  | nil =>
    obtain ⟨t, ht, frame, -⟩ := builderTurn_frame allEntries s
    exact ⟨_, run_succ (step_nil he), builderTurn_allEntries_ready hr, by rw [ht, frame]; exact he⟩
  | cons e rest ih =>
    obtain ⟨hreset, hrest⟩ := List.forall_mem_cons.1 hes
    obtain ⟨t, hstep, het, goes⟩ := step_noReset he hr hreset
    obtain ⟨u, hrun, hu⟩ := ih het (goes.rstN.trans hr) hrest
    exact ⟨u, (run_succ hstep).trans hrun, hu⟩

/-- Settles O20: by induction on the events. -/
theorem builderFinishesInEveryRun : Obligations.BuilderFinishesInEveryRun := by
  unfold Obligations.BuilderFinishesInEveryRun
  exact fun s hr hes => run_finishes_build rfl hr hes

end Sys2Proof.Machine
end

section
/-! Who writes the sticky bits, REG, SEED and TBL_INDEX (10_state.md R21 to R26; 60_exceptions.md R167). -/

namespace Sys2Proof.Machine

/-- Settles O46: of the moves of the sticky bits only reset's and CLRERR's take one from 1 to 0. -/
theorem errorBitsClearedOnlyByClrerrOrReset : Obligations.ErrorBitsClearedOnlyByClrerrOrReset := by
  unfold Obligations.ErrorBitsClearedOnlyByClrerrOrReset
  intro s t h hcleared
  rcases step_errorBitsMove h with ⟨hi, hn⟩ | ⟨e, he, hcause, _, _⟩ | ⟨_, _, _, hi, hn⟩ | ⟨_, _, _, _, hi, hn⟩
  case inr.inl => exact ⟨e, he, hcause⟩
  all_goals simp [hi, hn] at hcleared

/-- The elements that the builder, rst_n's release and the taking of an event leave alone. -/
structure HostElement {α : Type} (f : State → α) : Prop where
  builder : ∀ picks s, f (builderTurn picks s) = f s
  events : ∀ s es, f (State.setEvents s es) = f s
  release : ∀ s, f (State.releaseReset s) = f s

theorem hostElement_reg : HostElement State.reg where
  builder picks s := by obtain ⟨t, ht, frame, -⟩ := builderTurn_frame picks s; rw [ht, frame]
  events _ _ := rfl
  release _ := rfl

theorem hostElement_seed : HostElement State.seed where
  builder picks s := by obtain ⟨t, ht, frame, -⟩ := builderTurn_frame picks s; rw [ht, frame]
  events _ _ := rfl
  release _ := rfl

theorem hostElement_tblIndex : HostElement State.tblIndex where
  builder picks s := by obtain ⟨t, ht, frame, -⟩ := builderTurn_frame picks s; rw [ht, frame]
  events _ _ := rfl
  release _ := rfl

/-- Such an element changes only in an assertion of reset or in a host access. -/
theorem HostElement.changed_by_step {α : Type} {f : State → α} (hf : HostElement f) {s t : State}
    (h : step s = .next t) (hne : f t ≠ f s) :
    s.events.head? = some .assertReset ∨
      ∃ a rest, s.events.head? = some (.access a) ∧ hostAccess a (s.setEvents rest) = .next t := by
  rcases step_cases h with
    ⟨_, rfl⟩ | ⟨a, rest, he, _, ha⟩ | ⟨picks, rest, _, rfl⟩ | ⟨rest, he, _⟩ | ⟨rest, _, rfl⟩
  · exact absurd (hf.builder _ _) hne
  · exact .inr ⟨a, rest, congrArg List.head? he, ha⟩
  · exact absurd ((hf.builder _ _).trans (hf.events _ _)) hne
  · exact .inl (congrArg List.head? he)
  · exact absurd ((hf.release _).trans (hf.events _ _)) hne

/-- A word written to CMD changes REG only as INIT or as an update at READY = 1. -/
theorem execCmd_reg_changed {w : Word} {s t : State} (h : execCmd w s = .next t) (hne : t.reg ≠ s.reg) :
    ∃ i, decode w = .command i ∧ (i = .init ∨ needsTable i = true ∧ s.ready = true) := by
  cases hd : decode w with
  | command i =>
    obtain ⟨-, hreg, -⟩ := commandFrame i s t ((execCmd_command hd s).symm.trans h)
    refine ⟨i, rfl, ?_⟩
    by_contra hcause
    rw [not_or] at hcause
    exact hne (hreg hcause.1 hcause.2)
  | illegal why =>
    cases (execCmd_illegal hd s).symm.trans h
    exact absurd rfl hne

/-- Of the accesses only a write of a word to CMD touches REG. -/
theorem hostAccess_reg_changed {a : Access} {s t : State} (h : hostAccess a s = .next t) (hne : t.reg ≠ s.reg) :
    (Event.access a).issues .init ∨ ∃ i, needsTable i = true ∧ s.ready = true ∧ (Event.access a).issues i := by
  rcases hostAccess_cases a s with ⟨_, e⟩ | ⟨_, _, e⟩ | ⟨ha, e⟩ | ⟨_, _, _, e⟩ | ⟨_, _, _, e⟩ | ⟨_, _, e⟩
  case inr.inr.inl =>
    obtain ⟨i, hd, rfl | ⟨hn, hr⟩⟩ := execCmd_reg_changed (e.symm.trans h) hne
    · exact .inl ⟨_, congrArg _ ha, hd⟩
    · exact .inr ⟨i, hn, hr, _, congrArg _ ha, hd⟩
  all_goals
    cases e.symm.trans h
    exact absurd rfl hne

/-- Settles O47: REG changes in a reset or an access, and in an access only as INIT or an update. -/
theorem regWrittenOnlyByInitUpdatesAndReset : Obligations.RegWrittenOnlyByInitUpdatesAndReset := by
  unfold Obligations.RegWrittenOnlyByInitUpdatesAndReset
  intro s t h hne
  obtain he | ⟨a, rest, he, ha⟩ := hostElement_reg.changed_by_step h hne
  · exact ⟨_, he, .inl rfl⟩
  · exact ⟨_, he, .inr (hostAccess_reg_changed (s := s.setEvents rest) ha hne)⟩

/-- A legal write, its shape written out. -/
theorem eq_write_of_legal {a : Access} (hl : accessLegal a = true) (hdir : a.dir = .write) :
    a = ⟨.write, a.off, .four, a.wdata⟩ := by
  obtain ⟨hsize, -⟩ := (accessLegal_iff a).1 hl
  rw [← hdir, ← hsize]

/-- SEED changes only in a legal write to it, and then to the word written. -/
theorem hostAccess_seed_changed {a : Access} {s t : State} (h : hostAccess a s = .next t) (hne : t.seed ≠ s.seed) :
    a = ⟨.write, regOffset .seed, .four, a.wdata⟩ ∧ t.seed = a.wdata := by
  rcases hostAccess_cases a s with ⟨_, e⟩ | ⟨_, _, e⟩ | ⟨_, e⟩ | ⟨hl, hdir, hoff, e⟩ | ⟨_, _, _, e⟩ | ⟨_, _, e⟩
  case inr.inr.inl => exact absurd (congrArg State.seed (execCmd_frame (e.symm.trans h)) :) hne
  case inr.inr.inr.inl =>
    cases e.symm.trans h
    exact ⟨hoff ▸ eq_write_of_legal hl hdir, rfl⟩
  all_goals
    cases e.symm.trans h
    exact absurd rfl hne

/-- TBL_INDEX changes only in a legal write to it, and then to bits 7:0 of the word written. -/
theorem hostAccess_tblIndex_changed {a : Access} {s t : State} (h : hostAccess a s = .next t)
    (hne : t.tblIndex ≠ s.tblIndex) :
    a = ⟨.write, regOffset .tblIndex, .four, a.wdata⟩ ∧ t.tblIndex = a.wdata.extractLsb' 0 8 := by
  rcases hostAccess_cases a s with ⟨_, e⟩ | ⟨_, _, e⟩ | ⟨_, e⟩ | ⟨_, _, _, e⟩ | ⟨hl, hdir, hoff, e⟩ | ⟨_, _, e⟩
  case inr.inr.inl => exact absurd (congrArg State.tblIndex (execCmd_frame (e.symm.trans h)) :) hne
  case inr.inr.inr.inr.inl =>
    cases e.symm.trans h
    exact ⟨hoff ▸ eq_write_of_legal hl hdir, rfl⟩
  all_goals
    cases e.symm.trans h
    exact absurd rfl hne

/-- Settles O48: each changes in a reset or in an access, and in an access only as its own legal write. -/
theorem seedAndIndexWrittenOnlyByTheirWrites : Obligations.SeedAndIndexWrittenOnlyByTheirWrites := by
  unfold Obligations.SeedAndIndexWrittenOnlyByTheirWrites
  refine ⟨fun s t h hne => ?_, fun s t h hne => ?_⟩
  · obtain he | ⟨a, rest, he, ha⟩ := hostElement_seed.changed_by_step h hne
    · exact ⟨_, he, .inl rfl⟩
    · obtain ⟨hw, hv⟩ := hostAccess_seed_changed (s := s.setEvents rest) ha hne
      exact ⟨_, he, .inr ⟨a.wdata, congrArg _ hw, hv⟩⟩
  · obtain he | ⟨a, rest, he, ha⟩ := hostElement_tblIndex.changed_by_step h hne
    · exact ⟨_, he, .inl rfl⟩
    · obtain ⟨hw, hv⟩ := hostAccess_tblIndex_changed (s := s.setEvents rest) ha hne
      exact ⟨_, he, .inr ⟨a.wdata, congrArg _ hw, hv⟩⟩

end Sys2Proof.Machine
end

section
/-! The checksum by commands (41_accumulator.md R134, R135): every split of the bytes gives the same REG, and the host
sequence `init k; upd S; digest` at either READY. -/

namespace Sys2Proof.Machine

/-- At READY = 1 every command but INIT and CLRERR folds its bytes into REG, the empty ones none. -/
theorem exec_folds {i : Instr} (h : i ≠ .init ∧ i ≠ .clrerr) {s : State} (hd : s.ready = true) :
    exec i s = .next (s.setReg (foldBytes s.table s.reg (dataBytes i))) := by
  obtain ⟨hinit, hclrerr⟩ := h
  cases i with
  | init => exact absurd rfl hinit
  | clrerr => exact absurd rfl hclrerr
  | nop | upd0 => rfl
  | upd1 | upd2 | upd3 => exact exec_update_ready rfl hd

theorem execAll_folds {cmds : List Instr} {s : State} (hd : s.ready = true)
    (hcmds : ∀ i ∈ cmds, i ≠ .init ∧ i ≠ .clrerr) :
    execAll cmds s = .next (s.setReg (foldBytes s.table s.reg (cmds.flatMap dataBytes))) := by
  induction cmds generalizing s with
  | nil => rfl
  | cons i rest ih =>
    obtain ⟨hi, hrest⟩ := List.forall_mem_cons.1 hcmds
    rw [execAll_cons (exec_folds hi hd), ih (by exact hd) hrest, List.flatMap_cons, foldBytes_append]
    rfl

/-- Settles O49: each list folds its bytes, so equal bytes give equal states. -/
theorem everySplitGivesTheSameRegister : Obligations.EverySplitGivesTheSameRegister := by
  unfold Obligations.EverySplitGivesTheSameRegister
  refine ⟨fun cmds s hd hcmds => execAll_folds hd hcmds, fun cmds cmds' s hd hall hbytes => ?_⟩
  obtain ⟨h, h'⟩ := List.forall_mem_append.1 hall
  rw [execAll_folds hd h, execAll_folds hd h', hbytes]

/-! A list of updates at either READY: all its bytes are folded, or all are refused. -/

/-- The state after updates with these bytes: at READY = 1 they are folded into REG; at READY = 0 they are lost, and
ERR_NOTREADY is set if there were any. -/
def State.afterUpdates (s : State) (bytes : List Byte) : State :=
  if s.ready then s.setReg (foldBytes s.table s.reg bytes) else s.setErrNotReady (s.errNotReady || !bytes.isEmpty)

theorem afterUpdates_of_ready {s : State} (hd : s.ready = true) (bytes : List Byte) :
    s.afterUpdates bytes = s.setReg (foldBytes s.table s.reg bytes) := by
  rw [State.afterUpdates, if_pos hd]

theorem afterUpdates_of_notReady {s : State} (hd : s.ready = false) (bytes : List Byte) :
    s.afterUpdates bytes = s.setErrNotReady (s.errNotReady || !bytes.isEmpty) := by
  rw [State.afterUpdates, if_neg (by simp [hd])]

/-- Updates touch REG and ERR_NOTREADY alone. -/
theorem afterUpdates_frame (s : State) (bytes : List Byte) :
    s.afterUpdates bytes =
      { s with reg := (s.afterUpdates bytes).reg, errNotReady := (s.afterUpdates bytes).errNotReady } := by
  unfold State.afterUpdates
  split <;> rfl

theorem afterUpdates_rstN (s : State) (bytes : List Byte) : (s.afterUpdates bytes).rstN = s.rstN :=
  (congrArg State.rstN (afterUpdates_frame s bytes) :)

theorem afterUpdates_ready (s : State) (bytes : List Byte) : (s.afterUpdates bytes).ready = s.ready :=
  (congrArg State.ready (afterUpdates_frame s bytes) :)

theorem afterUpdates_nil (s : State) : s.afterUpdates [] = s := by
  cases hd : s.ready with
  | true =>
    rw [afterUpdates_of_ready hd]
    rfl
  | false =>
    rw [afterUpdates_of_notReady hd, List.isEmpty_nil, Bool.not_true, Bool.or_false]
    rfl

theorem afterUpdates_append (s : State) (as bs : List Byte) :
    (s.afterUpdates as).afterUpdates bs = s.afterUpdates (as ++ bs) := by
  cases hd : s.ready with
  | true =>
    rw [afterUpdates_of_ready hd, afterUpdates_of_ready (by exact hd), afterUpdates_of_ready hd, foldBytes_append]
    rfl
  | false =>
    have hempty : (as ++ bs).isEmpty = (as.isEmpty && bs.isEmpty) := by cases as <;> rfl
    rw [afterUpdates_of_notReady hd, afterUpdates_of_notReady (by exact hd), afterUpdates_of_notReady hd, hempty, Bool.not_and,
      ← Bool.or_assoc]
    rfl

/-- What is left to happen and what was answered last, both set. -/
def State.setPort (s : State) (es : List Event) (r : Option Response) : State :=
  { s with events := es, lastResponse := r }

@[simp] theorem setPort_setPort (s : State) (es es' : List Event) (r r' : Option Response) :
    (s.setPort es r).setPort es' r' = s.setPort es' r' := rfl

theorem respond_eq_setPort (s : State) (r : Response) : s.respond r = s.setPort s.events (some r) := rfl

/-- Updates neither read nor write these two. -/
@[simp] theorem afterUpdates_setPort (s : State) (bytes : List Byte) (es : List Event) (r : Option Response) :
    (s.setPort es r).afterUpdates bytes = (s.afterUpdates bytes).setPort es r := by
  unfold State.afterUpdates State.setPort
  dsimp only
  split <;> rfl

theorem dataBytes_isEmpty {i : Instr} (h : needsTable i = true) : (dataBytes i).isEmpty = false := by
  cases i with
  | nop | init | clrerr | upd0 => cases h
  | upd1 | upd2 | upd3 => rfl

theorem exec_afterUpdates {i : Instr} (h : needsTable i = true) (s : State) :
    exec i s = .next (s.afterUpdates (dataBytes i)) := by
  cases hd : s.ready with
  | true => rw [exec_update_ready h hd, afterUpdates_of_ready hd]
  | false =>
    rw [exec_update_notReady h hd, afterUpdates_of_notReady hd, dataBytes_isEmpty h, Bool.not_false, Bool.or_true]

/-! The host sequence `init k; upd S; digest` as accesses presented one after another. -/

theorem run_add {m : Nat} {s t : State} (h : run m s = .next t) (n : Nat) : run (m + n) s = run n t := by
  induction m generalizing s with
  | zero =>
    cases h
    rw [Nat.zero_add]
  | succ m ih =>
    rw [run] at h
    cases hs : step s with
    | next u =>
      rw [hs] at h
      rw [Nat.succ_add, run_succ hs, ih h]
    | fault r => rw [hs] at h; cases h
    | refused r => rw [hs] at h; cases h

/-- The step of a `cmd` line of an update. -/
theorem step_updateLine {s : State} {i : Instr} {lines : List HostLine} {rest : List Event} (hn : needsTable i = true)
    (hr : s.rstN = true) (he : s.events = lineEvents (cmdLine i :: lines) ++ rest) :
    step s = .next ((s.afterUpdates (dataBytes i)).setPort (lineEvents lines ++ rest) (some writeResponse)) := by
  rw [step_cmdLine hr he, exec_afterUpdates hn, ← afterUpdates_setPort]
  rfl

/-- The `cmd` lines of updates, by induction on them. -/
theorem run_updateLines {cmds : List Instr} (hn : ∀ i ∈ cmds, needsTable i = true) {s : State}
    {lines : List HostLine} {rest : List Event} (hr : s.rstN = true)
    (he : s.events = lineEvents (cmds.map cmdLine ++ lines) ++ rest) :
    ∃ r, run cmds.length s =
      .next ((s.afterUpdates (cmds.flatMap dataBytes)).setPort (lineEvents lines ++ rest) r) := by
  induction cmds generalizing s with
  | nil =>
    have events : s.events = lineEvents lines ++ rest := he
    refine ⟨s.lastResponse, ?_⟩
    rw [List.flatMap_nil, afterUpdates_nil, ← events]
    rfl
  | cons i cmds ih =>
    obtain ⟨hi, hcmds⟩ := List.forall_mem_cons.1 hn
    obtain ⟨r, hrun⟩ := ih hcmds
      (s := (s.afterUpdates (dataBytes i)).setPort (lineEvents (cmds.map cmdLine ++ lines) ++ rest) (some writeResponse))
      ((afterUpdates_rstN s (dataBytes i)).trans hr) rfl
    refine ⟨r, (run_succ (step_updateLine hi hr he)).trans (hrun.trans ?_)⟩
    rw [afterUpdates_setPort, setPort_setPort, afterUpdates_append, List.flatMap_cons]

/-- The state after `init k` and updates with these bytes. -/
def State.afterOneShot (s : State) (k : Word) (bytes : List Byte) : State :=
  ((s.setSeed k).setReg (~~~k)).afterUpdates bytes

theorem afterOneShot_of_ready {s : State} (hd : s.ready = true) (k : Word) (bytes : List Byte) :
    s.afterOneShot k bytes = (s.setSeed k).setReg (foldBytes s.table (~~~k) bytes) :=
  afterUpdates_of_ready (s := (s.setSeed k).setReg (~~~k)) hd bytes

theorem afterOneShot_of_notReady {s : State} (hd : s.ready = false) (k : Word) (bytes : List Byte) :
    s.afterOneShot k bytes =
      ((s.setSeed k).setReg (~~~k)).setErrNotReady (s.errNotReady || !bytes.isEmpty) :=
  afterUpdates_of_notReady (s := (s.setSeed k).setReg (~~~k)) hd bytes

/-- `init k`, at either READY. -/
theorem run_initLines {s : State} {k : Word} {lines : List HostLine} {rest : List Event} (hr : s.rstN = true)
    (he : s.events = lineEvents (initLines k ++ lines) ++ rest) :
    run 2 s =
      .next (((s.setSeed k).setReg (~~~k)).setPort (lineEvents lines ++ rest) (some writeResponse)) := by
  have hseed := (step_wrLine hr he).trans (regWrite_seed k _)
  exact (run_two hseed (step_cmdLine (i := .init) (lines := lines) (rest := rest) hr rfl)).trans rfl

theorem run_oneShot {s : State} {bytes : List Byte} {k : Word} {rest : List Event} (hr : s.rstN = true)
    (he : s.events = lineEvents (initLines k ++ updLines bytes ++ digestLines) ++ rest) :
    run (initLines k ++ updLines bytes ++ digestLines).length s =
      .next ((s.afterOneShot k bytes).setPort rest
        (some (readResponse (~~~(s.afterOneShot k bytes).reg)))) := by
  have hlen : (initLines k ++ updLines bytes ++ digestLines).length = 2 + ((updCommands bytes).length + 1) := by
    simp [initLines, updLines, digestLines]
    omega
  rw [List.append_assoc] at he
  obtain ⟨r, hupd⟩ := run_updateLines (updCommands_needsTable bytes)
    (s := ((s.setSeed k).setReg (~~~k)).setPort (lineEvents (updLines bytes ++ digestLines) ++ rest) (some writeResponse))
    (lines := digestLines) (rest := rest) hr rfl
  rw [updCommands_dataBytes, afterUpdates_setPort, setPort_setPort] at hupd
  rw [hlen, run_add (run_initLines hr he), run_add hupd]
  exact run_succ (step_rdLine (r := .digest) (lines := []) (rest := rest) ((afterUpdates_rstN _ bytes).trans hr) rfl)

/-- At READY = 1 the table of a state that meets the invariant is the finished one. -/
theorem table_of_ready {s : State} (hi : s.Inv) (hd : s.ready = true) : s.table = fullTable :=
  table_ext fun i => by rw [entryAt_table_of_ready hi hd, entryAt_fullTable]

/-- Settles O51: at READY = 1 the table is T's, so the complement of the Fold is Crc32c. -/
theorem oneShotSequenceReadsCrc : Obligations.OneShotSequenceReadsCrc := by
  unfold Obligations.OneShotSequenceReadsCrc
  intro s bytes k rest hi hd hr he
  refine ⟨_, run_oneShot hr he, ?_⟩
  rw [afterOneShot_of_ready hd, table_of_ready hi hd]
  exact ⟨rfl, rfl, rfl, rfl⟩

/-- Settles O52: at READY = 0 REG stays the complement of k. -/
theorem oneShotBeforeReadyLosesItsBytes : Obligations.OneShotBeforeReadyLosesItsBytes := by
  unfold Obligations.OneShotBeforeReadyLosesItsBytes
  intro s bytes k rest hd hr he
  refine ⟨_, run_oneShot hr he, ?_⟩
  rw [afterOneShot_of_notReady hd]
  refine ⟨?_, rfl, ?_, rfl⟩
  · exact congrArg (fun v => some (readResponse v)) BitVec.not_not
  · simp [State.setPort]

end Sys2Proof.Machine
end

section
/-! The lines of a host sequence (30_encoding.md R88): an equation of `hostStep` for each kind of line, and what the host takes from
the answer of its access. -/

namespace Sys2Proof.Machine

section lines
variable {prog : List HostLine} {m : HostState}

theorem hostStep_wr {size : Size} {off : Offset} {v : Word} (hm : m.halted = false)
    (hl : prog[m.line]? = some (.wr size off v)) :
    hostStep prog .host m = m.complete true (portAccess ⟨.write, off, size, v⟩ m.core) := by
  simp [hostStep, hm, hl]

theorem hostStep_rd {size : Size} {off : Offset} (hm : m.halted = false)
    (hl : prog[m.line]? = some (.rd size off)) :
    hostStep prog .host m = m.complete false (portAccess ⟨.read, off, size, 0#32⟩ m.core) := by
  simp [hostStep, hm, hl]

theorem hostStep_label {l : Nat} (hm : m.halted = false) (hl : prog[m.line]? = some (.label l)) :
    hostStep prog .host m = .next { m with line := m.line + 1 } := by
  simp [hostStep, hm, hl]

theorem hostStep_bneM_eq {l : Nat} {mask val : Word} (hm : m.halted = false)
    (hl : prog[m.line]? = some (.bneM l mask val)) (hh : m.h &&& mask = val) :
    hostStep prog .host m = .next { m with line := m.line + 1 } := by
  simp [hostStep, hm, hl, hh]

theorem hostStep_bneM_ne {l k : Nat} {mask val : Word} (hm : m.halted = false)
    (hl : prog[m.line]? = some (.bneM l mask val)) (hh : m.h &&& mask ≠ val) (hk : findLabel l prog = some k) :
    hostStep prog .host m = .next { m with line := k } := by
  simp [hostStep, hm, hl, hh, hk]

theorem hostStep_halt (hm : m.halted = false) (hl : prog[m.line]? = some .halt) :
    hostStep prog .host m = .next { m with halted := true } := by
  simp [hostStep, hm, hl]

end lines

theorem portAccess_released {s : State} (hr : s.rstN = true) (a : Access) : portAccess a s = hostAccess a s := by
  simp [portAccess, perform, hr]

/-- A write gives the host its response, and no value (log entry 14). -/
theorem complete_write (m : HostState) {c : State} {r : Response} (h : c.lastResponse = some r) :
    m.complete true (.next c) = .next { m with line := m.line + 1, resp := r.resp, core := c } := by
  obtain ⟨resp, rdata⟩ := r
  cases rdata <;> simp [HostState.complete, HostState.receive, h]

/-- A read gives the host its response and its value. -/
theorem complete_read (m : HostState) {c : State} {resp : Resp} {v : Word}
    (h : c.lastResponse = some ⟨resp, some v⟩) :
    m.complete false (.next c) = .next { m with line := m.line + 1, h := v, resp := resp, core := c } := by
  simp [HostState.complete, HostState.receive, h]

/-- A write of a word to an aligned offset is RegWrite there. -/
theorem hostStep_legal_wr {prog : List HostLine} {m : HostState} {off : Offset} {v : Word} {c : State}
    (hm : m.halted = false) (hr : m.core.rstN = true) (halign : off.toNat % 4 = 0)
    (hl : prog[m.line]? = some (.wr .four off v)) (hc : regWrite off v (m.core.respond writeResponse) = .next c) :
    hostStep prog .host m = .next { m with line := m.line + 1, resp := .okay, core := c } := by
  obtain ⟨t, ht, hresp⟩ := regWrite_keeps_lastResponse off v (m.core.respond writeResponse)
  cases ht.symm.trans hc
  rw [hostStep_wr hm hl, portAccess_released hr, hostAccess_write ((accessLegal_iff _).2 ⟨rfl, halign⟩) rfl, hc,
    complete_write m hresp]
  rfl

/-- A read of a word at an aligned offset is RegRead there. -/
theorem hostStep_legal_rd {prog : List HostLine} {m : HostState} {off : Offset} (hm : m.halted = false)
    (hr : m.core.rstN = true) (halign : off.toNat % 4 = 0) (hl : prog[m.line]? = some (.rd .four off)) :
    hostStep prog .host m = .next { m with
      line := m.line + 1, h := regRead m.core off, resp := .okay
      core := m.core.respond (readResponse (regRead m.core off)) } := by
  rw [hostStep_rd hm hl, portAccess_released hr, hostAccess_read ((accessLegal_iff _).2 ⟨rfl, halign⟩) rfl,
    complete_read m rfl]

/-- An access of another size than 4, or at an offset that is not a multiple of 4, is not legal (R52). -/
theorem accessLegal_eq_false {a : Access} (h : a.size ≠ .four ∨ a.off.toNat % 4 ≠ 0) : accessLegal a = false := by
  rw [← Bool.not_eq_true, accessLegal_iff, not_and_or]
  exact h

theorem hostStep_misshapen_wr {prog : List HostLine} {m : HostState} {size : Size} {off : Offset} {v : Word}
    (hm : m.halted = false) (hr : m.core.rstN = true) (hshape : size ≠ .four ∨ off.toNat % 4 ≠ 0)
    (hl : prog[m.line]? = some (.wr size off v)) :
    hostStep prog .host m =
      .next { m with line := m.line + 1, resp := .error, core := m.core.respond busErrorResponse } := by
  rw [hostStep_wr hm hl, portAccess_released hr, hostAccess_misshapen (accessLegal_eq_false hshape),
    complete_write m rfl]
  rfl

theorem hostStep_misshapen_rd {prog : List HostLine} {m : HostState} {size : Size} {off : Offset}
    (hm : m.halted = false) (hr : m.core.rstN = true) (hshape : size ≠ .four ∨ off.toNat % 4 ≠ 0)
    (hl : prog[m.line]? = some (.rd size off)) :
    hostStep prog .host m = .next { m with
      line := m.line + 1, h := 0#32, resp := .error, core := m.core.respond busErrorResponse } := by
  rw [hostStep_rd hm hl, portAccess_released hr, hostAccess_misshapen (accessLegal_eq_false hshape),
    complete_read m rfl]
  rfl

/-- Settles O55: one equation for each kind of line. -/
theorem hostLinesHaveTheirMeaning : Obligations.HostLinesHaveTheirMeaning := by
  unfold Obligations.HostLinesHaveTheirMeaning
  exact ⟨fun _ _ _ _ _ hm hr halign hl hc => hostStep_legal_wr hm hr halign hl hc,
    fun _ _ _ hm hr halign hl => hostStep_legal_rd hm hr halign hl,
    fun _ _ _ _ _ hm hr hshape hl => hostStep_misshapen_wr hm hr hshape hl,
    fun _ _ _ _ hm hr hshape hl => hostStep_misshapen_rd hm hr hshape hl,
    fun _ => rfl,
    fun _ _ _ hm hl => hostStep_label hm hl,
    fun _ _ _ _ _ hm hl hh => hostStep_bneM_eq hm hl hh,
    fun _ _ _ _ _ _ hm hl hh hk => hostStep_bneM_ne hm hl hh hk,
    fun _ _ hm hl => hostStep_halt hm hl⟩

end Sys2Proof.Machine
end

section
/-! Fair runs finish the build (40_table_generator.md R105): the unwritten entries only ever get fewer, a builder step takes
at least one of them, and a fair run keeps coming to one while the builder is enabled. -/

namespace Sys2Proof.Machine

/-- An endless run from time `m` on, of CORE alone or beside a host, in which rst_n is released and never moves, `moves n`
saying whether step n is a builder step. -/
structure BuildingRun (core : Nat → State) (moves : Nat → Bool) (m : Nat) : Prop where
  rstN : (core m).rstN = true
  goesOn : ∀ n, m ≤ n → BuildGoesOn (core n) (core (n + 1))
  writes : ∀ n, m ≤ n → moves n = true → (core (n + 1)).unwritten ⊂ (core n).unwritten
  fair : FairToBuilder core moves

section buildingRun
variable {core : Nat → State} {moves : Nat → Bool} {m : Nat} (run : BuildingRun core moves m)
include run

theorem BuildingRun.goesOn_le {n k : Nat} (hn : m ≤ n) (hk : n ≤ k) : BuildGoesOn (core n) (core k) := by
  induction k, hk using Nat.le_induction with
  | base => exact .refl _
  | succ k hk ih => exact ih.trans (run.goesOn k (hn.trans hk))

theorem BuildingRun.released {n : Nat} (hn : m ≤ n) : (core n).rstN = true :=
  (run.goesOn_le le_rfl hn).rstN.trans run.rstN

/-- By induction on the unwritten entries: while READY = 0, the builder is enabled, so by fairness it comes to a step. -/
theorem BuildingRun.exists_ready {n : Nat} (hn : m ≤ n) : ∃ k, n ≤ k ∧ (core k).ready = true := by
  induction hu : (core n).unwritten using Finset.strongInduction generalizing n with
  | H u ih =>
    subst hu
    obtain ⟨k, hk, hidle | hmove⟩ := run.fair n
    · refine ⟨k, hk, ?_⟩
      simpa [State.builderEnabled, run.released (hn.trans hk)] using hidle
    · have fewer : (core (k + 1)).unwritten ⊂ (core n).unwritten :=
        (run.writes k (hn.trans hk) hmove).trans_subset (run.goesOn_le hn hk).unwritten
      obtain ⟨j, hj, hready⟩ := ih _ fewer (n := k + 1) (by omega) rfl
      exact ⟨j, by omega, hready⟩

/-- From some time on READY = 1. -/
theorem BuildingRun.ready_from : ∃ k, m ≤ k ∧ ∀ n, k ≤ n → (core n).ready = true := by
  obtain ⟨k, hk, hready⟩ := run.exists_ready le_rfl
  exact ⟨k, hk, fun n hn => (run.goesOn_le hk hn).ready hready⟩

end buildingRun

/-- A step of a fair run whose event is no edge of rst_n. -/
theorem FairCoreRun.goesOn {events : Nat → Event} {core : Nat → State} (run : FairCoreRun events core) {n : Nat}
    (hr : (core n).rstN = true) (hreset : (events n).noReset) : BuildGoesOn (core n) (core (n + 1)) := by
  obtain ⟨t, ht, -, goes⟩ := step_noReset (s := (core n).setEvents [events n]) rfl hr hreset
  cases ht.symm.trans (run.steps n)
  exact ⟨goes.rstN, goes.ready, goes.unwritten⟩

/-- A step of a fair run that is a builder step. -/
theorem FairCoreRun.writes {events : Nat → Event} {core : Nat → State} (run : FairCoreRun events core) {n : Nat}
    (hmove : (events n).builderMoves (core n) = true) : (core (n + 1)).unwritten ⊂ (core n).unwritten := by
  have hstep := run.steps n
  cases he : events n with
  | build picks =>
    rw [he] at hmove hstep
    rw [← Host.Outcome.next.inj ((step_build rfl).symm.trans hstep)]
    exact builderTurn_unwritten_ssubset (s := ((core n).setEvents [.build picks]).setEvents []) hmove
  | access | assertReset | releaseReset =>
    rw [he] at hmove
    cases hmove

theorem FairCoreRun.buildingRun {events : Nat → Event} {core : Nat → State} (run : FairCoreRun events core) {m : Nat}
    (hr : (core m).rstN = true) (hreset : ∀ n, m ≤ n → (events n).noReset) :
    BuildingRun core (fun n => (events n).builderMoves (core n)) m where
  rstN := hr
  goesOn n hn := by
    have released : (core n).rstN = true := by
      induction n, hn using Nat.le_induction with
      | base => exact hr
      | succ n hn ih => exact (run.goesOn ih (hreset n hn)).rstN.trans ih
    exact run.goesOn released (hreset n hn)
  writes _ _ := run.writes
  fair := run.fair

/-- Settles O56: a fair run of CORE without an edge of rst_n is one in which the build goes on. -/
theorem fairRunsFinishTheBuild : Obligations.FairRunsFinishTheBuild := by
  unfold Obligations.FairRunsFinishTheBuild
  exact fun events core m run hr hreset => (run.buildingRun hr hreset).ready_from

end Sys2Proof.Machine
end

section
/-! A host beside CORE in a fair run (30_encoding.md R88; 40_table_generator.md R105; 70_reset_and_hazards.md R193): the build
goes on whatever the host does, and the host comes to its next line with only builder turns in between. -/

namespace Sys2Proof.Machine

/-! One turn. -/

theorem hostStep_halted {prog : List HostLine} {m : HostState} (hm : m.halted = true) :
    hostStep prog .host m = .next m := by
  simp [hostStep, hm]

theorem hostStep_past_end {prog : List HostLine} {m : HostState} (hm : m.halted = false)
    (hl : prog[m.line]? = none) : hostStep prog .host m = .next { m with halted := true } := by
  simp [hostStep, hm, hl]

theorem hostStep_builder (prog : List HostLine) (picks : List Byte) (m : HostState) :
    hostStep prog (.builder picks) m = .next { m with core := builderTurn picks m.core } := rfl

/-- A `wr` or `rd` line leaves CORE as its access does. -/
theorem core_of_complete {m m' : HostState} {keepH : Bool} {a : Access} (hr : m.core.rstN = true)
    (h : m.complete keepH (portAccess a m.core) = .next m') : hostAccess a m.core = .next m'.core := by
  obtain ⟨c, hc, -⟩ := hostAccess_completes a m.core
  obtain ⟨u, hu, rfl⟩ := complete_next m keepH c
  rw [portAccess_released hr, hc, hu] at h
  cases h
  exact hc

/-- To CORE the host's turn does nothing, or one host access, whether or not its branches resolve. -/
theorem core_of_hostStep {prog : List HostLine} {m m' : HostState} (hr : m.core.rstN = true)
    (h : hostStep prog .host m = .next m') : m'.core = m.core ∨ ∃ a, hostAccess a m.core = .next m'.core := by
  cases hm : m.halted with
  | true =>
    cases (hostStep_halted hm).symm.trans h
    exact .inl rfl
  | false =>
    cases hl : prog[m.line]? with
    | none =>
      cases (hostStep_past_end hm hl).symm.trans h
      exact .inl rfl
    | some line =>
      cases line with
      | wr size off v => exact .inr ⟨_, core_of_complete hr ((hostStep_wr hm hl).symm.trans h)⟩
      | rd size off => exact .inr ⟨_, core_of_complete hr ((hostStep_rd hm hl).symm.trans h)⟩
      | label l =>
        cases (hostStep_label hm hl).symm.trans h
        exact .inl rfl
      | halt =>
        cases (hostStep_halt hm hl).symm.trans h
        exact .inl rfl
      | bneM l mask val =>
        by_cases hh : m.h &&& mask = val
        · cases (hostStep_bneM_eq hm hl hh).symm.trans h
          exact .inl rfl
        · cases hk : findLabel l prog with
          | some k =>
            cases (hostStep_bneM_ne hm hl hh hk).symm.trans h
            exact .inl rfl
          | none => simp [hostStep, hm, hl, hh, hk] at h

/-- In every turn of the system the build goes on. -/
theorem hostStep_buildGoesOn {prog : List HostLine} {t : HostTurn} {m m' : HostState} (hr : m.core.rstN = true)
    (h : hostStep prog t m = .next m') : BuildGoesOn m.core m'.core := by
  cases t with
  | builder picks =>
    cases (hostStep_builder prog picks m).symm.trans h
    exact builderTurn_buildGoesOn picks m.core
  | host =>
    obtain hsame | ⟨a, ha⟩ := core_of_hostStep hr h
    · rw [hsame]
      exact .refl _
    · exact hostAccess_buildGoesOn ha

/-! Builder turns between two lines of the host. -/

/-- `t` comes from `s` by builder turns alone. -/
def BuilderRan : State → State → Prop := Relation.ReflTransGen fun s t => ∃ picks, t = builderTurn picks s

theorem BuilderRan.eq_of_ready {s t : State} (h : BuilderRan s t) (hd : s.ready = true) : t = s := by
  induction h with
  | refl => rfl
  | tail _ hturn ih =>
    obtain ⟨picks, rfl⟩ := hturn
    rw [ih, builderTurn_ready hd]

/-- What builder turns and answered reads leave of a CORE: rst_n, the error bits, a READY that is set, the invariant. -/
structure Waited (s t : State) : Prop where
  rstN : t.rstN = s.rstN
  errIllegal : t.errIllegal = s.errIllegal
  errNotReady : t.errNotReady = s.errNotReady
  ready : s.ready = true → t.ready = true
  inv : s.Inv → t.Inv

theorem Waited.refl (s : State) : Waited s s := ⟨rfl, rfl, rfl, id, id⟩

theorem Waited.trans {s t u : State} (h : Waited s t) (h' : Waited t u) : Waited s u :=
  ⟨h'.rstN.trans h.rstN, h'.errIllegal.trans h.errIllegal, h'.errNotReady.trans h.errNotReady, h'.ready ∘ h.ready,
    h'.inv ∘ h.inv⟩

theorem builderTurn_waited (picks : List Byte) (s : State) : Waited s (builderTurn picks s) := by
  obtain ⟨t, ht, frame, hready⟩ := builderTurn_frame picks s
  refine ⟨?_, ?_, ?_, ?_, fun hi => builderTurn_inv hi picks⟩ <;> rw [ht]
  · exact (congrArg State.rstN frame :)
  · exact (congrArg State.errIllegal frame :)
  · exact (congrArg State.errNotReady frame :)
  · exact hready

theorem BuilderRan.waited {s t : State} (h : BuilderRan s t) : Waited s t := by
  induction h with
  | refl => exact .refl s
  | tail _ hturn ih =>
    obtain ⟨picks, rfl⟩ := hturn
    exact ih.trans (builderTurn_waited picks _)

theorem Waited.respond {s t : State} (h : Waited s t) (hr : s.rstN = true) (r : Response) : Waited s (t.respond r) :=
  ⟨h.rstN, h.errIllegal, h.errNotReady, h.ready, fun hi =>
    (h.inv hi).of_same_build (h.rstN.trans hr) rfl rfl rfl⟩

section fairHostRun
variable {prog : List HostLine} {turns : Nat → HostTurn} {sys : Nat → HostState}

theorem FairHostRun.buildingRun (run : FairHostRun prog turns sys) {m : Nat} (hr : (sys m).core.rstN = true) :
    BuildingRun (fun n => (sys n).core) (fun n => (turns n).builderMoves (sys n).core) m where
  rstN := hr
  goesOn n hn := by
    have released : (sys n).core.rstN = true := by
      induction n, hn using Nat.le_induction with
      | base => exact hr
      | succ n hn ih => exact (hostStep_buildGoesOn ih (run.steps n)).rstN.trans ih
    exact hostStep_buildGoesOn released (run.steps n)
  writes n _ hmove := by
    have hstep := run.steps n
    cases ht : turns n with
    | host =>
      rw [ht] at hmove
      cases hmove
    | builder picks =>
      rw [ht] at hmove hstep
      rw [← Host.Outcome.next.inj hstep]
      exact builderTurn_unwritten_ssubset hmove
  fair := run.fair

/-- The host comes to its next line, only builder turns in between. -/
theorem FairHostRun.next_line (run : FairHostRun prog turns sys) (n : Nat) :
    ∃ k c, n < k ∧ BuilderRan (sys n).core c ∧ hostStep prog .host { sys n with core := c } = .next (sys k) := by
  obtain ⟨j, hj, hturn⟩ := run.hostMoves n
  obtain ⟨d, rfl⟩ := Nat.exists_eq_add_of_le hj
  induction d generalizing n with
  | zero => exact ⟨n + 1, _, by omega, .refl, hturn ▸ run.steps n⟩
  | succ d ih =>
    have hstep := run.steps n
    cases ht : turns n with
    | host => exact ⟨n + 1, _, by omega, .refl, ht ▸ hstep⟩
    | builder picks =>
      rw [ht] at hstep
      obtain ⟨k, c, hk, hran, hline⟩ := ih (n + 1) (by omega) (by rwa [Nat.add_right_comm])
      rw [← Host.Outcome.next.inj hstep] at hran hline
      exact ⟨k, c, by omega, .head ⟨picks, rfl⟩ hran, hline⟩

/-- At READY = 1 the builder turns in between change nothing. -/
theorem FairHostRun.next_line_of_ready (run : FairHostRun prog turns sys) {n : Nat} (hd : (sys n).core.ready = true) :
    ∃ k, n < k ∧ hostStep prog .host (sys n) = .next (sys k) := by
  obtain ⟨k, c, hk, hran, hline⟩ := run.next_line n
  rw [hran.eq_of_ready hd] at hline
  exact ⟨k, hk, hline⟩

end fairHostRun

/-! The lines from the host's place on. -/

theorem line_of_drop {prog rest : List HostLine} {q : Nat} {x : HostLine} (h : prog.drop q = x :: rest) :
    prog[q]? = some x ∧ prog.drop (q + 1) = rest := by
  refine ⟨?_, ?_⟩
  · rw [← List.head?_drop, h, List.head?_cons]
  · rw [← List.tail_drop, h, List.tail_cons]

end Sys2Proof.Machine
end

section
/-! `wait_ready` in a fair run (30_encoding.md R89; 40_table_generator.md R105): each pass of the loop reads STATUS, and a pass
begun at READY = 1 is the last. -/

namespace Sys2Proof.Machine

/-- The host stands at this line, and CORE can answer it. -/
structure HostState.StandsAt (m : HostState) (q : Nat) : Prop where
  line : m.line = q
  halted : m.halted = false
  rstN : m.core.rstN = true

/-- Bit 0 of STATUS, as the loop masks it, is READY. -/
theorem statusWord_and_one (s : State) : statusWord s &&& 0x1#32 = 0x1#32 ↔ s.ready = true := by
  rw [statusWord_eq_or]
  cases s.errNotReady <;> cases s.errIllegal <;> cases s.ready <;> decide

/-- `wait_ready`, with this label, stands at line `p`, and the label nowhere before. -/
structure WaitReadyAt (prog : List HostLine) (l p : Nat) : Prop where
  label : prog[p]? = some (.label l)
  read : prog[p + 1]? = some (.rd .four (regOffset .status))
  branch : prog[p + 2]? = some (.bneM l 0x1#32 0x1#32)
  target : findLabel l prog = some p

/-- A fresh label is found where `wait_ready` puts it. -/
theorem findLabel_fresh {before rest : List HostLine} {l : Nat} (h : HostLine.label l ∉ before) :
    findLabel l (before ++ .label l :: rest) = some before.length := by
  have none_before : before.findIdx? (fun x => x == HostLine.label l) = none := by
    rw [List.findIdx?_eq_none_iff]
    intro x hx
    have hne : x ≠ .label l := fun e => h (e ▸ hx)
    simpa using hne
  simp [findLabel, List.findIdx?_append, none_before, List.findIdx?_cons]

theorem waitReadyAt_append {before rest : List HostLine} {l : Nat} (h : HostLine.label l ∉ before) :
    WaitReadyAt (before ++ (waitReadyLines l ++ rest)) l before.length := by
  obtain ⟨label, h1⟩ := line_of_drop (List.drop_left (l₁ := before) (l₂ := waitReadyLines l ++ rest))
  obtain ⟨read, h2⟩ := line_of_drop h1
  obtain ⟨branch, -⟩ := line_of_drop h2
  exact ⟨label, read, branch, findLabel_fresh h⟩

/-- What stands after `wait_ready`. -/
theorem drop_past_waitReady (before rest : List HostLine) (l : Nat) :
    (before ++ (waitReadyLines l ++ rest)).drop (before.length + 3) = rest := by
  rw [← List.drop_drop, List.drop_left]
  rfl

section waitReady
variable {prog : List HostLine} {turns : Nat → HostTurn} {sys : Nat → HostState} {l p : Nat}

/-- The host has left `wait_ready` for the next line, with READY = 1 and the bit it read set. -/
structure HostState.LeftWaitReady (m : HostState) (p : Nat) : Prop where
  stands : m.StandsAt (p + 3)
  ready : m.core.ready = true
  bit : m.h &&& 0x1#32 = 0x1#32

/-- The label and the read: the host comes to the branch with STATUS in `h`, read in a CORE `c` not before. -/
theorem FairHostRun.reads_status (run : FairHostRun prog turns sys) (hp : WaitReadyAt prog l p) {n : Nat}
    (hn : (sys n).StandsAt p) : ∃ k c, n < k ∧ (sys k).StandsAt (p + 2) ∧ Waited (sys n).core c ∧
      (sys k).h = statusWord c ∧ Waited c (sys k).core := by
  obtain ⟨rfl, hhalt, hr⟩ := hn
  obtain ⟨j, c, hj, hran, hline⟩ := run.next_line n
  have hlabel := Host.Outcome.next.inj ((hostStep_label (by exact hhalt) (by exact hp.label)).symm.trans hline)
  obtain ⟨k, c', hk, hran', hline'⟩ := run.next_line j
  rw [← hlabel] at hran' hline'
  have waited := hran.waited.trans hran'.waited
  have hr' : c'.rstN = true := waited.rstN.trans hr
  have hread := Host.Outcome.next.inj
    ((hostStep_legal_rd (by exact hhalt) (by exact hr') (regOffset_aligned .status) (by exact hp.read)).symm.trans hline')
  refine ⟨k, c', by omega, ?_, waited, ?_, ?_⟩ <;> rw [← hread]
  · exact ⟨rfl, hhalt, hr'⟩
  · exact regRead_regOffset c' .status
  · exact (Waited.refl c').respond hr' _

/-- One pass of the loop: the host leaves it, or the pass was begun at READY = 0 and the host is back at its first line. -/
theorem FairHostRun.loop_pass (run : FairHostRun prog turns sys) (hp : WaitReadyAt prog l p) {n : Nat}
    (hn : (sys n).StandsAt p) : ∃ k, n < k ∧ Waited (sys n).core (sys k).core ∧
      ((sys k).LeftWaitReady p ∨ ((sys n).core.ready = false ∧ (sys k).StandsAt p)) := by
  obtain ⟨j, c, hj, ⟨hq, hhalt, hr⟩, hbefore, hh, hafter⟩ := run.reads_status hp hn
  obtain ⟨k, c', hk, hran, hline⟩ := run.next_line j
  have waited := hran.waited
  have hr' : c'.rstN = true := waited.rstN.trans hr
  have hbranch : prog[(sys j).line]? = some (.bneM l 0x1#32 0x1#32) := hq ▸ hp.branch
  by_cases hbit : (sys j).h &&& 0x1#32 = 0x1#32
  · have hleave := Host.Outcome.next.inj
      ((hostStep_bneM_eq (by exact hhalt) (by exact hbranch) (by exact hbit)).symm.trans hline)
    have hready : c.ready = true := by rwa [hh, statusWord_and_one] at hbit
    refine ⟨k, by omega, ?_, .inl ?_⟩ <;> rw [← hleave]
    · exact (hbefore.trans hafter).trans waited
    · exact ⟨⟨congrArg (· + 1) hq, hhalt, hr'⟩, waited.ready (hafter.ready hready), hbit⟩
  · have hback := Host.Outcome.next.inj
      ((hostStep_bneM_ne (by exact hhalt) (by exact hbranch) (by exact hbit) hp.target).symm.trans hline)
    have hnotReady : (sys n).core.ready = false := by
      rw [hh, statusWord_and_one] at hbit
      exact Bool.eq_false_iff.2 fun hready => hbit (hbefore.ready hready)
    refine ⟨k, by omega, ?_, .inr ⟨hnotReady, ?_⟩⟩ <;> rw [← hback]
    · exact (hbefore.trans hafter).trans waited
    · exact ⟨rfl, hhalt, hr'⟩

/-- The host leaves `wait_ready`: from some time on READY = 1, and until then each pass brings that time nearer. -/
theorem FairHostRun.leaves_waitReady (run : FairHostRun prog turns sys) (hp : WaitReadyAt prog l p) {m : Nat}
    (hm : (sys m).StandsAt p) :
    ∃ n, m ≤ n ∧ Waited (sys m).core (sys n).core ∧ (sys n).LeftWaitReady p := by
  obtain ⟨r, -, hready⟩ := (run.buildingRun hm.rstN).ready_from
  induction hd : r - m using Nat.strong_induction_on generalizing m with
  | _ d ih =>
    obtain ⟨k, hk, waited, hleft | ⟨hnotReady, hk'⟩⟩ := run.loop_pass hp hm
    · exact ⟨k, hk.le, waited, hleft⟩
    · have hlt : m < r := by
        by_contra hle
        exact Bool.false_ne_true (hnotReady.symm.trans (hready m (by omega)))
      obtain ⟨n, hn, waited', hleft⟩ := ih (r - k) (by omega) hk' rfl
      exact ⟨n, by omega, waited.trans waited', hleft⟩

end waitReady

/-- Settles O57: `wait_ready` stands after `before`, and the host leaves it. -/
theorem waitReadyEndsInEveryFairRun : Obligations.WaitReadyEndsInEveryFairRun := by
  unfold Obligations.WaitReadyEndsInEveryFairRun
  intro before after l turns sys m run hfresh hhalt hr hline
  rw [List.append_assoc] at run
  obtain ⟨n, hn, -, hleft⟩ := run.leaves_waitReady (waitReadyAt_append hfresh) ⟨hline, hhalt, hr⟩
  exact ⟨n, hn, hleft.stands.line, hleft.stands.halted, hleft.ready, hleft.bit⟩

end Sys2Proof.Machine
end

section
/-! `crc32c k, S` in a fair run (30_encoding.md R89; 41_accumulator.md R134): after `wait_ready` the builder has no step left,
so the lines run one after another as at the port. -/

namespace Sys2Proof.Machine

section afterReady
variable {prog : List HostLine} {turns : Nat → HostTurn} {sys : Nat → HostState}

/-- The host stands before these lines, the builder having finished. -/
structure HostState.StandsBefore (m : HostState) (prog lines : List HostLine) : Prop where
  lines : prog.drop m.line = lines
  halted : m.halted = false
  rstN : m.core.rstN = true
  ready : m.core.ready = true

/-- A `wr` line to a register, at READY = 1. -/
theorem FairHostRun.writes_line (run : FairHostRun prog turns sys) {n : Nat} {r : Reg} {v : Word}
    {lines : List HostLine} (hn : (sys n).StandsBefore prog (wrLine r v :: lines)) {c : State}
    (hc : regWrite (regOffset r) v ((sys n).core.respond writeResponse) = .next c) (hr : c.rstN = true)
    (hd : c.ready = true) :
    ∃ k, n ≤ k ∧ (sys k).StandsBefore prog lines ∧ (sys k).line = (sys n).line + 1 ∧ (sys k).core = c := by
  obtain ⟨k, hk, hline⟩ := run.next_line_of_ready hn.ready
  obtain ⟨hl, hrest⟩ := line_of_drop hn.lines
  have hwrite := Host.Outcome.next.inj
    ((hostStep_legal_wr hn.halted hn.rstN (regOffset_aligned r) hl hc).symm.trans hline)
  refine ⟨k, hk.le, ⟨?_, ?_, ?_, ?_⟩, ?_, ?_⟩ <;> rw [← hwrite]
  · exact hrest
  · exact hn.halted
  · exact hr
  · exact hd

/-- The `cmd` lines of updates, by induction on them. -/
theorem FairHostRun.sends_updates (run : FairHostRun prog turns sys) {cmds : List Instr}
    (hneeds : ∀ i ∈ cmds, needsTable i = true) {n : Nat} {lines : List HostLine}
    (hn : (sys n).StandsBefore prog (cmds.map cmdLine ++ lines)) :
    ∃ k es r, n ≤ k ∧ (sys k).StandsBefore prog lines ∧ (sys k).line = (sys n).line + cmds.length ∧
      (sys k).core = ((sys n).core.afterUpdates (cmds.flatMap dataBytes)).setPort es r := by
  induction cmds generalizing n with
  | nil =>
    refine ⟨n, (sys n).core.events, (sys n).core.lastResponse, le_rfl, hn, rfl, ?_⟩
    rw [List.flatMap_nil, afterUpdates_nil]
    rfl
  | cons i cmds ih =>
    obtain ⟨hi, hcmds⟩ := List.forall_mem_cons.1 hneeds
    obtain ⟨j, hj, hstands, hline, hcore⟩ := run.writes_line hn
      ((regWrite_cmd_encode i _).trans (exec_afterUpdates hi _))
      ((afterUpdates_rstN _ _).trans hn.rstN) ((afterUpdates_ready _ _).trans hn.ready)
    obtain ⟨k, es, r, hk, hstands', hline', hcore'⟩ := ih hcmds hstands
    refine ⟨k, es, r, hj.trans hk, hstands', by rw [hline', hline, List.length_cons]; omega, ?_⟩
    rw [hcore', hcore, respond_eq_setPort, afterUpdates_setPort, afterUpdates_setPort, setPort_setPort,
      afterUpdates_append, List.flatMap_cons]

/-- `init k`. -/
theorem FairHostRun.sends_init (run : FairHostRun prog turns sys) {n : Nat} {k : Word} {lines : List HostLine}
    (hn : (sys n).StandsBefore prog (initLines k ++ lines)) :
    ∃ j es r, n ≤ j ∧ (sys j).StandsBefore prog lines ∧ (sys j).line = (sys n).line + 2 ∧
      (sys j).core = (((sys n).core.setSeed k).setReg (~~~k)).setPort es r := by
  obtain ⟨i, hi, hstands, hline, hcore⟩ := run.writes_line hn (regWrite_seed k _) hn.rstN hn.ready
  obtain ⟨j, hj, hstands', hline', hcore'⟩ := run.writes_line hstands
    ((regWrite_cmd_encode .init _).trans (exec_init _)) hstands.rstN hstands.ready
  refine ⟨j, (sys n).core.events, some writeResponse, hi.trans hj, hstands', by rw [hline', hline], ?_⟩
  rw [hcore', hcore]
  rfl

/-- `digest`. -/
theorem FairHostRun.reads_digest (run : FairHostRun prog turns sys) {n : Nat} {lines : List HostLine}
    (hn : (sys n).StandsBefore prog (digestLines ++ lines)) :
    ∃ k r, n ≤ k ∧ sys k = { sys n with
      line := (sys n).line + 1, h := ~~~(sys n).core.reg, resp := .okay, core := (sys n).core.respond r } := by
  obtain ⟨k, hk, hline⟩ := run.next_line_of_ready hn.ready
  obtain ⟨hl, -⟩ := line_of_drop hn.lines
  have hread := Host.Outcome.next.inj
    ((hostStep_legal_rd hn.halted hn.rstN (regOffset_aligned .digest) hl).symm.trans hline)
  rw [regRead_regOffset, readReg_digest] at hread
  exact ⟨k, _, hk.le, hread.symm⟩

/-- `init k; upd S; digest` from a finished table: `h` is the complement of the Fold, and no error bit is added. -/
theorem FairHostRun.computes_crc (run : FairHostRun prog turns sys) {n : Nat} {k : Word} {bytes : List Byte}
    {lines : List HostLine}
    (hn : (sys n).StandsBefore prog (initLines k ++ (updLines bytes ++ (digestLines ++ lines))))
    (htable : (sys n).core.table = fullTable) :
    ∃ j, n ≤ j ∧ (sys j).line = (sys n).line + (2 + (updCommands bytes).length + 1) ∧ (sys j).halted = false ∧
      (sys j).resp = .okay ∧ (sys j).h = crc32c bytes k ∧
      (sys j).core.errIllegal = (sys n).core.errIllegal ∧ (sys j).core.errNotReady = (sys n).core.errNotReady := by
  obtain ⟨i, es, r, hi, hstands, hline, hcore⟩ := run.sends_init hn
  obtain ⟨u, es', r', hu, hstands', hline', hcore'⟩ := run.sends_updates (updCommands_needsTable bytes) hstands
  obtain ⟨j, r'', hj, hdigest⟩ := run.reads_digest hstands'
  have hcrc : (sys u).core = (((sys n).core.setSeed k).setReg (foldBytes fullTable (~~~k) bytes)).setPort es' r' := by
    rw [hcore', hcore, updCommands_dataBytes, afterUpdates_setPort, setPort_setPort, ← htable,
      ← afterOneShot_of_ready hn.ready]
    rfl
  refine ⟨j, by omega, ?_, ?_, ?_, ?_, ?_, ?_⟩ <;> rw [hdigest]
  · show (sys u).line + 1 = _
    omega
  · exact hstands'.halted
  · rw [hcrc]
    rfl
  · rw [hcrc]
    rfl
  · rw [hcrc]
    rfl

end afterReady

/-- Settles O58: `wait_ready` keeps the error bits and the invariant, so the table it leaves is T's, and the lines after it
compute Crc32c over it. -/
theorem crcSequenceComputesInEveryFairRun : Obligations.CrcSequenceComputesInEveryFairRun := by
  unfold Obligations.CrcSequenceComputesInEveryFairRun
  intro before after l k bytes turns sys m run hfresh hhalt hr hinv hline
  have hprog : before ++ crc32cLines l k bytes ++ after =
      before ++ (waitReadyLines l ++ (initLines k ++ (updLines bytes ++ (digestLines ++ after)))) := by
    simp only [crc32cLines, List.append_assoc]
  have hlen : (crc32cLines l k bytes).length = 3 + (2 + (updCommands bytes).length + 1) := by
    simp [crc32cLines, waitReadyLines, pollLines, initLines, updLines, digestLines]
    omega
  rw [hprog] at run
  obtain ⟨n, hn, waited, ⟨hat, hhalt', hr'⟩, hready, -⟩ :=
    run.leaves_waitReady (waitReadyAt_append hfresh) ⟨hline, hhalt, hr⟩
  obtain ⟨j, hj, hend, hhalt'', hresp, hh, hi, hnr⟩ := run.computes_crc
    ⟨hat ▸ drop_past_waitReady before _ l, hhalt', hr', hready⟩ (table_of_ready (waited.inv hinv) hready)
  exact ⟨j, hn.trans hj, by rw [hend, hat, hlen, Nat.add_assoc], hhalt'', hresp, hh, hi.trans waited.errIllegal,
    hnr.trans waited.errNotReady⟩

end Sys2Proof.Machine
end
